-- ==== Sys2Proof/Word.lean ====
section
/-! DEFINITION. The machine's words: limbs, bytes, 32-bit words, register indices and values
(spec/00_scope.md R3, R5; spec/10_state.md R8). -/

namespace Sys2Proof

/-- An 8-bit unit: a character of RTEXT (R19) or a byte of a byte bus (R24). -/
abbrev Byte := BitVec 8

/-- A limb: one base-256 digit (R3). -/
abbrev Limb := BitVec 8

/-- A 32-bit unit: a word of the command stream (R28) or a 32-bit register (R31). -/
abbrev Word := BitVec 32

/-- A value register's index, 0..15 (R29). -/
abbrev Reg := Fin 16

/-- A value: its limbs, least significant first (R5, R22). A value of the block has N limbs. -/
abbrev Value := List Limb

end Sys2Proof
end

