-- ==== Sys2Proof/Syntax.lean ====
section
/-! DEFINITION. The commands of the block, one constructor per row of spec/opcode_table.json
(spec/30_encoding.md R44), their opcodes, what a decoder answers, and the assembler's lines (R51, R52). -/

namespace Sys2Proof

/-- A command with its operands (R42, R51). A literal is the native source LIT[S-1:0] of the form's width S (R45);
the bits LIT[63:S] are 0 in every legal command, so they are no operand. -/
inductive Instr where
  | zero (d : Reg)
  | mov (d a : Reg)
  | xfer (d a : Reg)
  | ldu8 (d : Reg) (lit : BitVec 8)
  | ldu16 (d : Reg) (lit : BitVec 16)
  | ldu32 (d : Reg) (lit : BitVec 32)
  | ldu64 (d : Reg) (lit : BitVec 64)
  | lds8 (d : Reg) (lit : BitVec 8)
  | lds16 (d : Reg) (lit : BitVec 16)
  | lds32 (d : Reg) (lit : BitVec 32)
  | lds64 (d : Reg) (lit : BitVec 64)
  | add (d a b : Reg)
  | inc (d a : Reg)
  | sub (d a b : Reg)
  | dec (d a : Reg)
  | neg (d a : Reg)
  | mul (d a b : Reg)
  | divu (d a b : Reg)
  | remu (d a b : Reg)
  /-- Quotient to d, remainder to c, dividend a, divisor b (R80). -/
  | divrem (d c a b : Reg)
  | cmp (a b : Reg)
  | render (a : Reg)
  deriving DecidableEq, Repr

/-- The OP field's legal values, by name (R44). -/
inductive Opcode where
  | zero | mov | xfer
  | ldu8 | ldu16 | ldu32 | ldu64
  | lds8 | lds16 | lds32 | lds64
  | add | inc
  | sub | dec | neg
  | mul
  | divu | remu | divrem
  | cmp
  | render
  deriving DecidableEq, Repr

/-- Which register fields of the command word an opcode uses (R44, column "used"). -/
structure FieldUse where
  d : Bool
  a : Bool
  b : Bool
  c : Bool
  deriving DecidableEq, Repr

/-- Why a command is illegal, in the order of the checks (R47, R48, R90). -/
inductive Illegal where
  /-- OP is not in the table of R44. -/
  | unknownOpcode
  /-- RSV, w[31:24], is not 0. -/
  | reservedBits
  /-- A register field the opcode does not use is not 0. -/
  | unusedField
  /-- DIVREM with D = C. -/
  | sameDestination
  /-- A literal form whose literal has a bit set above its source width. -/
  | wideLiteral
  deriving DecidableEq, Repr

/-- What decoding a command word and the words after it answers (R47). -/
inductive Decoded where
  | instr (i : Instr)
  | illegal (why : Illegal)
  /-- The word is a literal form and a literal word is not there yet: WAIT. -/
  | wait
  deriving DecidableEq, Repr

/-- The operands of an assembly line (R51): a register `v0`..`v15`, or a literal `#n` with its sign as written. -/
inductive AsmOperand where
  | reg (r : Reg)
  | lit (neg : Bool) (n : Nat)
  deriving DecidableEq, Repr

/-- The assembler's mnemonics: the 22 commands and the pseudo-instructions of R52. -/
inductive AsmOp where
  | cmd (op : Opcode)
  | postinc | postdec | adda | suba | mula | diva | rema | nop | ldi
  deriving DecidableEq, Repr

end Sys2Proof
end

