-- ==== Sys2Proof/WellFormed.lean ====
section
/-! DEFINITION. The commands that have a legal spelling (spec/30_encoding.md R48). Register indices and literals are
in range by their types; the one check left is DIVREM's. -/

namespace Sys2Proof

/-- A command is well formed when its command word is legal: DIVREM with D = C is not (R48). -/
def Instr.wellFormed : Instr → Bool
  | .divrem d c _ _ => d != c
  | .zero _ => true
  | .mov _ _ => true
  | .xfer _ _ => true
  | .ldu8 _ _ => true
  | .ldu16 _ _ => true
  | .ldu32 _ _ => true
  | .ldu64 _ _ => true
  | .lds8 _ _ => true
  | .lds16 _ _ => true
  | .lds32 _ _ => true
  | .lds64 _ _ => true
  | .add _ _ _ => true
  | .inc _ _ => true
  | .sub _ _ _ => true
  | .dec _ _ => true
  | .neg _ _ => true
  | .mul _ _ _ => true
  | .divu _ _ _ => true
  | .remu _ _ _ => true
  | .cmp _ _ => true
  | .render _ => true

end Sys2Proof
end

