-- ==== Sys2Proof/Decode.lean ====
section
/-! DEFINITION. Decoding a command word and its literal words, total and rejecting by name
(spec/30_encoding.md R41 to R49), and the encoder written from the same tables. -/

namespace Sys2Proof

/-! ### The command word's fields (R41) -/

/-- OP, w[7:0]. -/
def opField (w : Word) : BitVec 8 := w.extractLsb' 0 8

/-- RSV, w[31:24]. -/
def rsvField (w : Word) : BitVec 8 := w.extractLsb' 24 8

/-- A 4-bit register field is an unsigned index (R42). -/
def regOfBits (b : BitVec 4) : Reg := ⟨b.toNat, b.isLt⟩

/-- A register index as its 4-bit field (R42). -/
def bitsOfReg (r : Reg) : BitVec 4 := BitVec.ofNat 4 r.val

/-- D, w[11:8]. -/
def dField (w : Word) : Reg := regOfBits (w.extractLsb' 8 4)

/-- A, w[15:12]. -/
def aField (w : Word) : Reg := regOfBits (w.extractLsb' 12 4)

/-- B, w[19:16]. -/
def bField (w : Word) : Reg := regOfBits (w.extractLsb' 16 4)

/-- C, w[23:20]. -/
def cField (w : Word) : Reg := regOfBits (w.extractLsb' 20 4)

/-! ### The opcode map (R44) -/

/-- The OP value of each command. -/
def Opcode.code : Opcode → BitVec 8
  | .zero => 0x01
  | .mov => 0x02
  | .xfer => 0x03
  | .ldu8 => 0x10
  | .ldu16 => 0x11
  | .ldu32 => 0x12
  | .ldu64 => 0x13
  | .lds8 => 0x14
  | .lds16 => 0x15
  | .lds32 => 0x16
  | .lds64 => 0x17
  | .add => 0x20
  | .inc => 0x21
  | .sub => 0x28
  | .dec => 0x29
  | .neg => 0x2A
  | .mul => 0x30
  | .divu => 0x38
  | .remu => 0x39
  | .divrem => 0x3A
  | .cmp => 0x40
  | .render => 0x50

/-- Every opcode, in the table's order. -/
def Opcode.all : List Opcode :=
  [.zero, .mov, .xfer, .ldu8, .ldu16, .ldu32, .ldu64, .lds8, .lds16, .lds32, .lds64] ++
  [.add, .inc, .sub, .dec, .neg, .mul, .divu, .remu, .divrem, .cmp, .render]

/-- The command an OP value selects; any other value is reserved (R44). -/
def Opcode.ofCode (c : BitVec 8) : Option Opcode := Opcode.all.find? (fun o => o.code == c)

/-- The register fields each command uses (R44, column "used"). -/
def Opcode.uses : Opcode → FieldUse
  | .zero => ⟨true, false, false, false⟩
  | .mov => ⟨true, true, false, false⟩
  | .xfer => ⟨true, true, false, false⟩
  | .ldu8 => ⟨true, false, false, false⟩
  | .ldu16 => ⟨true, false, false, false⟩
  | .ldu32 => ⟨true, false, false, false⟩
  | .ldu64 => ⟨true, false, false, false⟩
  | .lds8 => ⟨true, false, false, false⟩
  | .lds16 => ⟨true, false, false, false⟩
  | .lds32 => ⟨true, false, false, false⟩
  | .lds64 => ⟨true, false, false, false⟩
  | .add => ⟨true, true, true, false⟩
  | .inc => ⟨true, true, false, false⟩
  | .sub => ⟨true, true, true, false⟩
  | .dec => ⟨true, true, false, false⟩
  | .neg => ⟨true, true, false, false⟩
  | .mul => ⟨true, true, true, false⟩
  | .divu => ⟨true, true, true, false⟩
  | .remu => ⟨true, true, true, false⟩
  | .divrem => ⟨true, true, true, true⟩
  | .cmp => ⟨false, true, true, false⟩
  | .render => ⟨false, true, false, false⟩

/-- The length of a command in words: 3 for OP 0x10..0x17, else 1 (R46). -/
def Opcode.words : Opcode → Nat
  | .ldu8 => 3
  | .ldu16 => 3
  | .ldu32 => 3
  | .ldu64 => 3
  | .lds8 => 3
  | .lds16 => 3
  | .lds32 => 3
  | .lds64 => 3
  | .zero => 1
  | .mov => 1
  | .xfer => 1
  | .add => 1
  | .inc => 1
  | .sub => 1
  | .dec => 1
  | .neg => 1
  | .mul => 1
  | .divu => 1
  | .remu => 1
  | .divrem => 1
  | .cmp => 1
  | .render => 1

/-- An unused register field of the word is not 0 (R43). -/
def Opcode.unusedNonzero (op : Opcode) (w : Word) : Bool :=
  (!op.uses.d && dField w != 0) || (!op.uses.a && aField w != 0) ||
    (!op.uses.b && bField w != 0) || (!op.uses.c && cField w != 0)

/-! ### Decoding (R47) -/

/-- A literal form's literal: LIT = CmdWord(CP+1) | CmdWord(CP+2) << 32 (R25, R45). It waits for missing words, and
a literal with a bit set above the source width S is illegal. -/
def withLiteral (S : Nat) (mk : BitVec S → Instr) : List Word → Decoded
  | lo :: hi :: _ =>
    let lit : BitVec 64 := hi ++ lo
    if lit >>> S ≠ 0 then .illegal .wideLiteral else .instr (mk (lit.setWidth S))
  | [] => .wait
  | [_] => .wait

/-- The command of a known opcode whose RSV and unused fields are 0. -/
def decodeOperands (op : Opcode) (w : Word) (rest : List Word) : Decoded :=
  match op with
  | .zero => .instr (.zero (dField w))
  | .mov => .instr (.mov (dField w) (aField w))
  | .xfer => .instr (.xfer (dField w) (aField w))
  | .ldu8 => withLiteral 8 (.ldu8 (dField w)) rest
  | .ldu16 => withLiteral 16 (.ldu16 (dField w)) rest
  | .ldu32 => withLiteral 32 (.ldu32 (dField w)) rest
  | .ldu64 => withLiteral 64 (.ldu64 (dField w)) rest
  | .lds8 => withLiteral 8 (.lds8 (dField w)) rest
  | .lds16 => withLiteral 16 (.lds16 (dField w)) rest
  | .lds32 => withLiteral 32 (.lds32 (dField w)) rest
  | .lds64 => withLiteral 64 (.lds64 (dField w)) rest
  | .add => .instr (.add (dField w) (aField w) (bField w))
  | .inc => .instr (.inc (dField w) (aField w))
  | .sub => .instr (.sub (dField w) (aField w) (bField w))
  | .dec => .instr (.dec (dField w) (aField w))
  | .neg => .instr (.neg (dField w) (aField w))
  | .mul => .instr (.mul (dField w) (aField w) (bField w))
  | .divu => .instr (.divu (dField w) (aField w) (bField w))
  | .remu => .instr (.remu (dField w) (aField w) (bField w))
  | .divrem =>
    if dField w = cField w then .illegal .sameDestination
    else .instr (.divrem (dField w) (cField w) (aField w) (bField w))
  | .cmp => .instr (.cmp (aField w) (bField w))
  | .render => .instr (.render (aField w))

/-- Decoding the command whose first word is w and whose later words are the first of rest; the checks stand in the
order of R47 and R90. -/
def decode (w : Word) (rest : List Word) : Decoded :=
  match Opcode.ofCode (opField w) with
  | none => .illegal .unknownOpcode
  | some op =>
    if rsvField w ≠ 0 then .illegal .reservedBits
    else if op.unusedNonzero w then .illegal .unusedField
    else decodeOperands op w rest

/-! ### Encoding (R41, R45) -/

/-- A format-R command word from its fields, RSV = 0. -/
def packWord (op : BitVec 8) (d a b c : Reg) : Word :=
  0#8 ++ bitsOfReg c ++ bitsOfReg b ++ bitsOfReg a ++ bitsOfReg d ++ op

/-- The opcode of a command. -/
def Instr.opcode : Instr → Opcode
  | .zero _ => .zero
  | .mov _ _ => .mov
  | .xfer _ _ => .xfer
  | .ldu8 _ _ => .ldu8
  | .ldu16 _ _ => .ldu16
  | .ldu32 _ _ => .ldu32
  | .ldu64 _ _ => .ldu64
  | .lds8 _ _ => .lds8
  | .lds16 _ _ => .lds16
  | .lds32 _ _ => .lds32
  | .lds64 _ _ => .lds64
  | .add _ _ _ => .add
  | .inc _ _ => .inc
  | .sub _ _ _ => .sub
  | .dec _ _ => .dec
  | .neg _ _ => .neg
  | .mul _ _ _ => .mul
  | .divu _ _ _ => .divu
  | .remu _ _ _ => .remu
  | .divrem _ _ _ _ => .divrem
  | .cmp _ _ => .cmp
  | .render _ => .render

/-- The command word of a command: its used fields, every other field 0 (R43). -/
def Instr.commandWord (i : Instr) : Word :=
  match i with
  | .zero d => packWord i.opcode.code d 0 0 0
  | .mov d a => packWord i.opcode.code d a 0 0
  | .xfer d a => packWord i.opcode.code d a 0 0
  | .ldu8 d _ => packWord i.opcode.code d 0 0 0
  | .ldu16 d _ => packWord i.opcode.code d 0 0 0
  | .ldu32 d _ => packWord i.opcode.code d 0 0 0
  | .ldu64 d _ => packWord i.opcode.code d 0 0 0
  | .lds8 d _ => packWord i.opcode.code d 0 0 0
  | .lds16 d _ => packWord i.opcode.code d 0 0 0
  | .lds32 d _ => packWord i.opcode.code d 0 0 0
  | .lds64 d _ => packWord i.opcode.code d 0 0 0
  | .add d a b => packWord i.opcode.code d a b 0
  | .inc d a => packWord i.opcode.code d a 0 0
  | .sub d a b => packWord i.opcode.code d a b 0
  | .dec d a => packWord i.opcode.code d a 0 0
  | .neg d a => packWord i.opcode.code d a 0 0
  | .mul d a b => packWord i.opcode.code d a b 0
  | .divu d a b => packWord i.opcode.code d a b 0
  | .remu d a b => packWord i.opcode.code d a b 0
  | .divrem d c a b => packWord i.opcode.code d a b c
  | .cmp a b => packWord i.opcode.code 0 a b 0
  | .render a => packWord i.opcode.code 0 a 0 0

/-- The two literal words of a native source, zero-extended to 64 bits, low word first (R25, R45). -/
def literalWords {S : Nat} (lit : BitVec S) : List Word :=
  [(lit.setWidth 64).extractLsb' 0 32, (lit.setWidth 64).extractLsb' 32 32]

/-- The words after the command word. -/
def Instr.literals : Instr → List Word
  | .ldu8 _ lit => literalWords lit
  | .ldu16 _ lit => literalWords lit
  | .ldu32 _ lit => literalWords lit
  | .ldu64 _ lit => literalWords lit
  | .lds8 _ lit => literalWords lit
  | .lds16 _ lit => literalWords lit
  | .lds32 _ lit => literalWords lit
  | .lds64 _ lit => literalWords lit
  | .zero _ => []
  | .mov _ _ => []
  | .xfer _ _ => []
  | .add _ _ _ => []
  | .inc _ _ => []
  | .sub _ _ _ => []
  | .dec _ _ => []
  | .neg _ _ => []
  | .mul _ _ _ => []
  | .divu _ _ _ => []
  | .remu _ _ _ => []
  | .divrem _ _ _ _ => []
  | .cmp _ _ => []
  | .render _ => []

/-- The words of a command. -/
def encode (i : Instr) : List Word := i.commandWord :: i.literals

/-! ### The byte boundary and the table's numbering (R24) -/

/-- A stream word from its four bytes, little-endian (R24). -/
def wordOfBytes (b0 b1 b2 b3 : Byte) : Word :=
  b0.setWidth 32 ||| (b1.setWidth 32 <<< 8) ||| (b2.setWidth 32 <<< 16) ||| (b3.setWidth 32 <<< 24)

/-- The words of a byte transfer; bytes that do not yet make a whole word make none (log 15). -/
def wordsOfBytes : List Byte → List Word
  | b0 :: b1 :: b2 :: b3 :: bs => wordOfBytes b0 b1 b2 b3 :: wordsOfBytes bs
  | _ => []

/-- The 12 bytes that hold the low nbits bits of w, byte 0 first, every bit above nbits 0. -/
def tableBytes (nbits w : Nat) : List Byte :=
  (List.range 12).map (fun k => BitVec.ofNat 8 (w % 2 ^ nbits / 256 ^ k))

/-- The three words of an instruction numbered as spec/opcode_table.json numbers its bits. -/
def tableWords (nbits w : Nat) : List Word := wordsOfBytes (tableBytes nbits w)

/-- The command the decoder reads from an instruction whose bits are w. -/
def decodeTableWord (nbits w : Nat) : Option Instr :=
  match tableWords nbits w with
  | [] => none
  | cw :: rest =>
    match decode cw rest with
    | .instr i => some i
    | .illegal _ => none
    | .wait => none

end Sys2Proof
end

