-- ==== Sys2Proof/Config.lean ====
section
/-! DEFINITION. What the spec leaves open: the draw of a moved-from register (spec/40_construction.md R56)
and the parameter LIMBS that State.reset takes (spec/00_scope.md R2). -/

namespace Sys2Proof.Config

/-- Limb k of the n-th draw (R6 `draw()`, R56). It has no body: nothing can be proved of its value, so a claim
about a drawn register holds whatever it is. Log 2. -/
opaque drawLimb : (n k : Nat) → Limb

/-- DESIGN CHOICE (log 1): the N that State.reset takes. The spec gives none (R2: OPEN, N >= 1); 8 is the 64-bit
width of the source's worked examples. State.resetWith takes any N, and no statement rests on this number. -/
def resetLimbs : Word := 8

end Sys2Proof.Config
end

