-- ==== Sys2Proof/Machine/State.lean ====
section
/-! DEFINITION. The machine's state as plain data (spec/10_state.md), the host's turns (spec/70_reset_and_hazards.md
R105), the reasons a step can stop, and the state after reset (R21, R103). -/

namespace Sys2Proof.Machine

/-- The command stream: the host's words, CmdWord(0) first, L of them (R28). Log 8. -/
abbrev Memory := List Word

/-- A stream is at most 2^32 - 1 words long (R11, R28). -/
def maxStreamWords : Nat := 4294967295

/-- The stream's canonical form: a list of words is one, and its length is in range. -/
def Memory.wf (m : Memory) : Bool := m.length ≤ maxStreamWords

/-- The cause codes of STATUS.CAUSE (R87). -/
inductive Cause where
  | none
  | divByZero
  | contractWidth
  | contractNegative
  | illegalCommand
  deriving DecidableEq, Repr

/-- The run states of STATUS.RUN (R15). -/
inductive RunState where
  | ready
  | trapped
  | halted
  deriving DecidableEq, Repr

/-- What the host's READ may name (R105). -/
inductive HostReg where
  | value (r : Reg)
  | status
  | cp
  | fcmd
  | fcp
  | cfg
  | rtext
  deriving DecidableEq, Repr

/-- What a READ gives back (R105): limbs, limb 0 first; a 32-bit register; or RTEXT with RLEN. -/
inductive HostData where
  | limbs (v : Value)
  | word (w : Word)
  | text (t : List Byte) (len : Nat)
  deriving DecidableEq, Repr

/-- The host's actions (R105). -/
inductive HostAction where
  | supply (ws : List Word)
  | read (r : HostReg)
  | resume
  | reset
  deriving DecidableEq, Repr

/-- Who moves next: the block, or the host with one action. Log 3. -/
inductive Turn where
  | block
  | host (a : HostAction)
  deriving DecidableEq, Repr

/-- The six relations a host reads off the flags (R83). -/
inductive Relation where
  | eq | ne | lt | gt | le | ge
  deriving DecidableEq, Repr

/-- The machine's state. -/
structure State where
  /-- v0..v15 (R8); each value has N limbs. -/
  regs : Vector Value 16
  /-- CP (R10). -/
  cp : Word
  /-- STATUS (R12). -/
  status : Word
  /-- FCMD (R16). -/
  fcmd : Word
  /-- FCP (R16). -/
  fcp : Word
  /-- CFG, the constant N (R17). -/
  cfg : Word
  /-- RTEXT, RTEXT[0] first; RLEN is its length (R19). -/
  rtext : List Byte
  /-- The command stream (R28); L is its length. -/
  stream : Memory
  /-- The model's own: how many draws XFER has taken (log 2). -/
  draws : Nat
  /-- The model's own: the turns to come, the next one first; after the last, every turn is the block's (log 3). -/
  schedule : List Turn
  deriving DecidableEq, Repr

/-- LIMBS, N (R2, R17). -/
def State.limbs (s : State) : Nat := s.cfg.toNat

/-- RLEN (R19). -/
def State.rlen (s : State) : Nat := s.rtext.length

/-- Why the machine stops with a fault. No command's meaning raises one: traps and halts are next states. -/
inductive Fault where
  /-- Raised by step alone, when the block has the turn and STATUS.RUN = 3, which R15 says is never produced. Safe: the
  spec gives such a state no behaviour. Log 6. -/
  | reservedRunState
  deriving DecidableEq, Repr

/-- Why the model gives no step. -/
inductive Refusal where
  /-- An instruction that has no meaning yet, by its mnemonic. No arm of exec answers it. -/
  | notModelled (mnemonic : String)
  /-- Raised by step alone, when the stream is, or a SUPPLY would make it, longer than 2^32 - 1 words, "outside the
  model (refused)" (R11, R28). Safe. Log 5. -/
  | streamTooLong
  /-- Raised by step alone, when the block has the turn and CFG = 0: N is at least 1 (R2). Safe. Log 7. -/
  | zeroLimbs
  deriving DecidableEq, Repr

/-- The state after reset of an instance with n limbs (R21, R103). -/
def State.resetWith (n : Word) : State where
  regs := Vector.replicate 16 (List.replicate n.toNat 0#8)
  cp := 0
  status := 0
  fcmd := 0
  fcp := 0
  cfg := n
  rtext := []
  stream := []
  draws := 0
  schedule := []

/-- The state after reset. N is Config.resetLimbs, a DESIGN CHOICE (log 1); every other field is R21's, and the model's
own two fields start at 0 and empty (logs 2, 3). -/
def State.reset : State := State.resetWith Config.resetLimbs

end Sys2Proof.Machine
end

