-- ==== Sys2Proof/Machine/Flags.lean ====
section
/-! DEFINITION. STATUS: its fields, what writes them, and the relations a host reads off the flags
(spec/10_state.md R12 to R15; spec/45_comparator.md R82, R83; spec/60_exceptions.md R87). -/

namespace Sys2Proof.Machine

/-- The cause codes (R87). -/
def Cause.code : Cause → BitVec 4
  | .none => 0
  | .divByZero => 1
  | .contractWidth => 2
  | .contractNegative => 3
  | .illegalCommand => 4

/-- The run-state codes (R15). -/
def RunState.code : RunState → BitVec 2
  | .ready => 0
  | .trapped => 1
  | .halted => 2

/-- EQ, bit 0. -/
def Status.eq (w : Word) : Bool := w.getLsbD 0

/-- LT, bit 1. -/
def Status.lt (w : Word) : Bool := w.getLsbD 1

/-- GT, bit 2. -/
def Status.gt (w : Word) : Bool := w.getLsbD 2

/-- CAUSE, bits 7:4. -/
def Status.cause (w : Word) : BitVec 4 := w.extractLsb' 4 4

/-- RUN, bits 9:8. -/
def Status.run (w : Word) : BitVec 2 := w.extractLsb' 8 2

/-- STATUS from its fields: bits 3 and 31:10 are hardwired 0 (R12). -/
def Status.pack (eq lt gt : Bool) (cause : BitVec 4) (run : BitVec 2) : Word :=
  0#22 ++ run ++ cause ++ 0#1 ++ BitVec.ofBool gt ++ BitVec.ofBool lt ++ BitVec.ofBool eq

/-- What CMP writes: exactly one of EQ, LT and GT (R13, R82). -/
def Status.setFlags (w : Word) (o : Ordering) : Word :=
  Status.pack (o == .eq) (o == .lt) (o == .gt) (Status.cause w) (Status.run w)

/-- What trap and halt entry write: CAUSE and RUN (R14, R88, R89). -/
def Status.enter (w : Word) (run : RunState) (cause : Cause) : Word :=
  Status.pack (Status.eq w) (Status.lt w) (Status.gt w) cause.code run.code

/-- What RESUME writes: RUN = READY (R92). -/
def Status.resume (w : Word) : Word :=
  Status.pack (Status.eq w) (Status.lt w) (Status.gt w) (Status.cause w) RunState.ready.code

/-- STATUS.RUN of the machine. -/
def State.run (s : State) : BitVec 2 := Status.run s.status

/-- STATUS.CAUSE of the machine. -/
def State.cause (s : State) : BitVec 4 := Status.cause s.status

/-- The flags EQ, LT, GT of the machine. -/
def State.flags (s : State) : Bool × Bool × Bool := (Status.eq s.status, Status.lt s.status, Status.gt s.status)

/-- The relation a host reads off the flags after CMP; with no flag set there is none to read (R83). -/
def Relation.read (r : Relation) (status : Word) : Option Bool :=
  let e := Status.eq status
  let l := Status.lt status
  let g := Status.gt status
  if e || l || g then
    match r with
    | .eq => some e
    | .ne => some (!e)
    | .lt => some l
    | .gt => some g
    | .le => some (e || l)
    | .ge => some (e || g)
  else none

end Sys2Proof.Machine
end

