-- ==== Sys2Proof/Machine/Value.lean ====
section
/-! DEFINITION. Values and their numbers (spec/00_scope.md R5, R6; spec/20_memory.md R22). -/

namespace Sys2Proof.Machine

/-- val(v), the sum of limb k times 256^k (R5). -/
def val : Value → Nat
  | [] => 0
  | l :: ls => l.toNat + 256 * val ls

/-- The n-limb value of a number, reduced modulo 256^n (R6 "mod 2^W", R9). -/
def ofNat : (n : Nat) → Nat → Value
  | 0, _ => []
  | n + 1, v => BitVec.ofNat 8 (v % 256) :: ofNat n (v / 256)

/-- limb(v, k) as a number (R5). -/
def limbAt (v : Value) (k : Nat) : Nat := (v.getD k 0#8).toNat

/-- The zero value of n limbs. -/
def zeros (n : Nat) : Value := List.replicate n 0#8

/-- v with zero limbs above, to n limbs. -/
def padTo (n : Nat) (v : Value) : Value := v ++ zeros (n - v.length)

end Sys2Proof.Machine
end

