-- ==== Sys2Proof/Machine/Operands.lean ====
section
/-! DEFINITION. The operand forms: value registers (spec/10_state.md R8), literals (spec/30_encoding.md R45,
spec/40_construction.md R57, R62) and draws (spec/00_scope.md R6). -/

namespace Sys2Proof.Machine

/-- x[r], a whole register read (R6, R31). -/
def State.reg (s : State) (r : Reg) : Value := s.regs[r.val]

/-- x[r] <- v, a whole register write (R6, R31). No register is hardwired (R8). -/
def State.setReg (s : State) (r : Reg) (v : Value) : State := { s with regs := s.regs.set r.val v }

/-- The native source of width S as n limbs: low limbs copied verbatim, high limbs 0 (R26, R57). -/
def widen (n : Nat) {S : Nat} (lit : BitVec S) : Value :=
  (List.range n).map (fun k => if k < S / 8 then lit.extractLsb' (8 * k) 8 else 0#8)

/-- The native signed source is negative: LIT[S-1] = 1 (R45, R62). -/
def negative {S : Nat} (lit : BitVec S) : Bool := lit.getLsbD (S - 1)

/-- The value of the next draw: any n limbs (R6, R56, log 2). -/
def State.drawValue (s : State) : Value := (List.range s.limbs).map (Config.drawLimb s.draws)

/-- The draw is taken: the next one is another. -/
def State.drawn (s : State) : State := { s with draws := s.draws + 1 }

end Sys2Proof.Machine
end

