-- ==== Sys2Proof/Machine/Ops.lean ====
section
/-! DEFINITION. The shared operations: ending a command, taking a trap or halt, the return from a trap, reset, and the
render buffer (spec/10_state.md R11, R19; spec/60_exceptions.md R88, R89, R92; spec/70_reset_and_hazards.md R103). -/

namespace Sys2Proof.Machine

/-- What a step or a command answers. -/
abbrev Result := Host.Outcome State Fault Refusal

/-- CP <- CP + n (R11). It does not wrap in a run: a stream has at most 2^32 - 1 words. -/
def State.advance (s : State) (n : Nat) : State := { s with cp := s.cp + BitVec.ofNat 32 n }

/-- A command completes: CP moves past its words (R11, R50). -/
def finish (i : Instr) (s : State) : Result := .next (s.advance i.opcode.words)

/-- Trap entry (run = TRAPPED, R88) and halt entry (run = HALTED, R89): CAUSE, RUN, FCMD and FCP are written, CP and
everything else stay. -/
def State.enter (s : State) (run : RunState) (cause : Cause) (w : Word) : State :=
  { s with status := Status.enter s.status run cause, fcmd := w, fcp := s.cp }

/-- raise Trap(cause, w) with w the command word of i (R6, R88). -/
def raiseTrap (cause : Cause) (i : Instr) (s : State) : Result := .next (s.enter .trapped cause i.commandWord)

/-- raise Halt(cause, w) with w the command word of i (R6, R89). -/
def raiseHalt (cause : Cause) (i : Instr) (s : State) : Result := .next (s.enter .halted cause i.commandWord)

/-- RESUME, the return from a trap (R92). -/
def State.resume (s : State) : State :=
  if s.run = RunState.trapped.code then { s with status := Status.resume s.status, cp := s.fcp + 1 } else s

/-- RESET (R103, R21): the spec's state at its reset values, the stream discarded, CFG the constant it is. The model's
own draws and schedule go on (logs 2, 3). -/
def State.hostReset (s : State) : State :=
  { State.resetWith s.cfg with draws := s.draws, schedule := s.schedule }

/-- RTEXT <- t, RLEN <- length(t): the whole buffer is replaced (R19, R86). -/
def State.setText (s : State) (t : List Byte) : State := { s with rtext := t }

/-- The flags of CMP (R82). -/
def State.setFlags (s : State) (o : Ordering) : State := { s with status := Status.setFlags s.status o }

end Sys2Proof.Machine
end

