-- ==== Sys2Proof/Machine/Construction.lean ====
section
/-! DEFINITION. ZERO, MOV, XFER and the widening constructions (spec/40_construction.md R54 to R66). -/

namespace Sys2Proof.Machine

/-- ZERO vD (R54). -/
def execZero (d : Reg) (s : State) : Result := finish (.zero d) (s.setReg d (zeros s.limbs))

/-- MOV vD, vA (R55). -/
def execMov (d a : Reg) (s : State) : Result := finish (.mov d a) (s.setReg d (s.reg a))

/-- XFER vD, vA (R56): the moved-from register, D itself when D = A, receives a draw. -/
def execXfer (d a : Reg) (s : State) : Result :=
  if d = a then finish (.xfer d a) ((s.setReg d s.drawValue).drawn)
  else finish (.xfer d a) (((s.setReg d (s.reg a)).setReg a s.drawValue).drawn)

/-- WidenU(S) (R57). -/
def widenU (i : Instr) (d : Reg) {S : Nat} (lit : BitVec S) (s : State) : Result :=
  if 8 * s.limbs < S then raiseHalt .contractWidth i s
  else finish i (s.setReg d (widen s.limbs lit))

/-- WidenS(S): width before sign (R62). -/
def widenS (i : Instr) (d : Reg) {S : Nat} (lit : BitVec S) (s : State) : Result :=
  if 8 * s.limbs < S then raiseHalt .contractWidth i s
  else if negative lit then raiseHalt .contractNegative i s
  else finish i (s.setReg d (widen s.limbs lit))

/-- LDU8 vD, #n (R58). -/
def execLdu8 (d : Reg) (lit : BitVec 8) (s : State) : Result := widenU (.ldu8 d lit) d lit s

/-- LDU16 vD, #n (R59). -/
def execLdu16 (d : Reg) (lit : BitVec 16) (s : State) : Result := widenU (.ldu16 d lit) d lit s

/-- LDU32 vD, #n (R60). -/
def execLdu32 (d : Reg) (lit : BitVec 32) (s : State) : Result := widenU (.ldu32 d lit) d lit s

/-- LDU64 vD, #n (R61). -/
def execLdu64 (d : Reg) (lit : BitVec 64) (s : State) : Result := widenU (.ldu64 d lit) d lit s

/-- LDS8 vD, #n (R63). -/
def execLds8 (d : Reg) (lit : BitVec 8) (s : State) : Result := widenS (.lds8 d lit) d lit s

/-- LDS16 vD, #n (R64). -/
def execLds16 (d : Reg) (lit : BitVec 16) (s : State) : Result := widenS (.lds16 d lit) d lit s

/-- LDS32 vD, #n (R65). -/
def execLds32 (d : Reg) (lit : BitVec 32) (s : State) : Result := widenS (.lds32 d lit) d lit s

/-- LDS64 vD, #n (R66). -/
def execLds64 (d : Reg) (lit : BitVec 64) (s : State) : Result := widenS (.lds64 d lit) d lit s

end Sys2Proof.Machine
end

