-- ==== Sys2Proof/Machine/Comparator.lean ====
section
/-! DEFINITION. The comparator chain: CMP (spec/45_comparator.md R81, R82). -/

namespace Sys2Proof.Machine

/-- The scan of R81 over limbs given most significant first: the first differing limb decides. -/
def scanLimbs : List Limb → List Limb → Ordering
  | a :: as, b :: bs => if a.toNat < b.toNat then .lt else if a.toNat > b.toNat then .gt else scanLimbs as bs
  | [], _ => .eq
  | _ :: _, [] => .eq

/-- Compare(a, b): every limb, from N-1 down to and including limb 0 (R81, C5). -/
def compareValues (a b : Value) : Ordering := scanLimbs a.reverse b.reverse

/-- CMP vA, vB (R82). -/
def execCmp (a b : Reg) (s : State) : Result :=
  finish (.cmp a b) (s.setFlags (compareValues (s.reg a) (s.reg b)))

end Sys2Proof.Machine
end

