-- ==== Sys2Proof/Machine/Divider.lean ====
section
/-! DEFINITION. The divider: DIVU, REMU, DIVREM by the exact quotient and remainder (spec/44_divider.md R76, R78 to
R80), and the reference pipeline of R77 as a definition of its own (log 11). -/

namespace Sys2Proof.Machine

/-- DivMod(a, b) for b != 0: floor quotient and remainder (R76). -/
def divMod (a b : Value) : Value × Value :=
  (ofNat a.length (val a / val b), ofNat a.length (val a % val b))

/-- DIVU vD, vA, vB (R78). -/
def execDivu (d a b : Reg) (s : State) : Result :=
  if val (s.reg b) = 0 then raiseTrap .divByZero (.divu d a b) s
  else finish (.divu d a b) (s.setReg d (divMod (s.reg a) (s.reg b)).1)

/-- REMU vD, vA, vB (R79). -/
def execRemu (d a b : Reg) (s : State) : Result :=
  if val (s.reg b) = 0 then raiseTrap .divByZero (.remu d a b) s
  else finish (.remu d a b) (s.setReg d (divMod (s.reg a) (s.reg b)).2)

/-- DIVREM vD, vC, vA, vB (R80). D = C has no legal spelling and halts as decoding does (R48, log 10). -/
def execDivrem (d c a b : Reg) (s : State) : Result :=
  if d = c then raiseHalt .illegalCommand (.divrem d c a b) s
  else if val (s.reg b) = 0 then raiseTrap .divByZero (.divrem d c a b) s
  else
    let qr := divMod (s.reg a) (s.reg b)
    finish (.divrem d c a b) ((s.setReg d qr.1).setReg c qr.2)

/-! ### The reference pipeline (R77) -/

/-- The number of significant limbs: 1 + the greatest index of a non-zero limb, 0 for the value 0 (R77 step 1). -/
def sigLimbs : Value → Nat
  | [] => 0
  | l :: ls =>
    match sigLimbs ls with
    | 0 => if l = 0 then 0 else 1
    | n + 1 => n + 2

/-- Short division by a number v, most significant limb first: the quotient's limbs and the remainder (R77, n = 1). -/
def shortDiv (v : Nat) : Value → Value × Nat
  | [] => ([], 0)
  | l :: ls =>
    let qr := shortDiv v ls
    let t := qr.2 * 256 + l.toNat
    (BitVec.ofNat 8 (t / v) :: qr.1, t % v)

/-- Limbs times a digit, with the last carry as one limb more: exact, no truncation (R77 step 2, C4). -/
def mulDigit (x : Nat) : Value → (carry : Nat) → Value
  | [], carry => [BitVec.ofNat 8 carry]
  | l :: ls, carry =>
    let t := l.toNat * x + carry
    BitVec.ofNat 8 (t % 256) :: mulDigit x ls (t / 256)

/-- The scale d = 256 div (top + 1) (R77 step 2, C3). -/
def scaleOf (b : Value) : Nat := 256 / (limbAt b (sigLimbs b - 1) + 1)

/-- V, the scaled divisor's n limbs (R77 step 2). -/
def scaledDivisor (b : Value) : Value := (mulDigit (scaleOf b) (b.take (sigLimbs b)) 0).take (sigLimbs b)

/-- U at the start, the scaled dividend's m+1 limbs (R77 step 2). -/
def scaledDividend (a b : Value) : Value := mulDigit (scaleOf b) (a.take (sigLimbs a)) 0

/-- The while loop of R77 step 3 on (qhat, rhat), with a bound on its passes (log 12). -/
def correctDigit (vTop vNext uNext : Nat) : (passes qhat rhat : Nat) → Nat × Nat
  | 0, qhat, rhat => (qhat, rhat)
  | passes + 1, qhat, rhat =>
    if 256 ≤ qhat ∨ rhat * 256 + uNext < qhat * vNext then
      if 256 ≤ rhat + vTop then (qhat - 1, rhat + vTop)
      else correctDigit vTop vNext uNext passes (qhat - 1) (rhat + vTop)
    else (qhat, rhat)

/-- The trial digit of R77 step 3 for a window of n+1 limbs, corrected downward. -/
def trialDigit (v : Value) (window : Value) : Nat :=
  let n := v.length
  let num := limbAt window n * 256 + limbAt window (n - 1)
  let vTop := limbAt v (n - 1)
  (correctDigit vTop (limbAt v (n - 2)) (limbAt window (n - 2)) 256 (num / vTop) (num % vTop)).1

/-- R77 step 4: multiply and subtract on the n+1 limbs of the window; on a borrow, one less and one divisor added
back, the final carry ignored. The digit and the new window. -/
def mulSubtract (v window : Value) (qhat : Nat) : Nat × Value :=
  let n1 := v.length + 1
  let t : Int := (val window : Int) - ((qhat * val v : Nat) : Int)
  if t < 0 then (qhat - 1, ofNat n1 ((t + ((256 ^ n1 : Nat) : Int)).toNat + val v))
  else (qhat, ofNat n1 t.toNat)

/-- Steps 3 to 5 of R77 for j = count-1 downto 0: u is the working remainder, q the digits found so far. -/
def divLoop (v : Value) : (count : Nat) → (u q : Value) → Value × Value
  | 0, u, q => (q, u)
  | j + 1, u, q =>
    let n1 := v.length + 1
    let window := (u.drop j).take n1
    let step := mulSubtract v window (trialDigit v window)
    divLoop v j (u.take j ++ step.2 ++ u.drop (j + n1)) (BitVec.ofNat 8 step.1 :: q)

/-- DivRef(a, b) for b != 0 (R77). -/
def divRef (a b : Value) : Value × Value :=
  let n := sigLimbs b
  let m := sigLimbs a
  match compareValues a b with
  | .lt => (zeros a.length, a)
  | .eq | .gt =>
    if n = 1 then
      let qr := shortDiv (limbAt b 0) (a.take m)
      (padTo a.length qr.1, ofNat a.length qr.2)
    else
      let qu := divLoop (scaledDivisor b) (m - n + 1) (scaledDividend a b) []
      (padTo a.length qu.1, padTo a.length (shortDiv (scaleOf b) (qu.2.take n)).1)

end Sys2Proof.Machine
end

