-- ==== Sys2Proof/Machine/Multiplier.lean ====
section
/-! DEFINITION. The schoolbook multiplier: MUL (spec/43_multiplier.md R74, R75). -/

namespace Sys2Proof.Machine

/-- The inner loop of R74 for one limb x of the left operand: p is the partial product from index i up, so it ends
where i+j leaves the range, and the carry left there is dropped. -/
def mulRow (x : Nat) : (p b : Value) → (carry : Nat) → Value
  | p :: ps, b :: bs, carry =>
    let t := carry + p.toNat + x * b.toNat
    BitVec.ofNat 8 (t % 256) :: mulRow x ps bs (t / 256)
  | [], _, _ => []
  | p :: ps, [], _ => p :: ps

/-- The outer loop of R74: a is the left operand from limb i up, p the partial product from index i up; limb i of the
product is settled once row i is added. -/
def mulRows : (a b p : Value) → Value
  | a :: as, b, p =>
    match mulRow a.toNat p b 0 with
    | [] => []
    | q :: qs => q :: mulRows as b qs
  | [], _, p => p

/-- Schoolbook(a, b) (R74). -/
def schoolbook (a b : Value) : Value := mulRows a b (zeros a.length)

/-- MUL vD, vA, vB (R75). -/
def execMul (d a b : Reg) (s : State) : Result :=
  finish (.mul d a b) (s.setReg d (schoolbook (s.reg a) (s.reg b)))

end Sys2Proof.Machine
end

