-- ==== Sys2Proof/Machine/Renderer.lean ====
section
/-! DEFINITION. The limb renderer: RENDER (spec/46_renderer.md R84 to R86). -/

namespace Sys2Proof.Machine

/-- The ASCII code of a nibble's lowercase hex character (R84). -/
def hexDigit (h : BitVec 4) : Byte :=
  if h.toNat < 10 then BitVec.ofNat 8 (0x30 + h.toNat) else BitVec.ofNat 8 (0x61 + (h.toNat - 10))

/-- A limb as two characters, the high nibble first (R23, R85). -/
def hexLimb (l : Limb) : List Byte := [hexDigit (l.extractLsb' 4 4), hexDigit (l.extractLsb' 0 4)]

/-- The hex encoder: limbs N-1 down to 0, 2*N characters (R85). -/
def hexText (v : Value) : List Byte := v.reverse.flatMap hexLimb

/-- The character "0". -/
def charZero : Byte := 0x30

/-- while length(s) > 2 and s[0..1] = "00": s <- s[2..] (R85). -/
def stripPairs : List Byte → List Byte
  | x :: y :: z :: s => if x = charZero ∧ y = charZero then stripPairs (z :: s) else x :: y :: z :: s
  | [] => []
  | [x] => [x]
  | [x, y] => [x, y]

/-- Zero keeps one digit; a lone leading "0" nibble is stripped (R85, C1). -/
def stripNibble (t : List Byte) : List Byte :=
  if t = [charZero, charZero] then [charZero]
  else
    match t with
    | [] => []
    | c :: cs => if c = charZero then cs else c :: cs

/-- Render(v) (R85). -/
def render (v : Value) : List Byte := stripNibble (stripPairs (hexText v))

/-- RENDER vA (R86). -/
def execRender (a : Reg) (s : State) : Result := finish (.render a) (s.setText (render (s.reg a)))

end Sys2Proof.Machine
end

