-- ==== Sys2Proof/Machine/Adder.lean ====
section
/-! DEFINITION. The adder unit: ADD, INC (spec/41_adder.md R67 to R69). -/

namespace Sys2Proof.Machine

/-- RippleAdd(a, b, cin): limb by limb from limb 0, the carry out of the top limb discarded (R67). -/
def rippleAdd : Value → Value → (carry : Nat) → Value
  | a :: as, b :: bs, carry =>
    let sum := carry + a.toNat + b.toNat
    BitVec.ofNat 8 (sum % 256) :: rippleAdd as bs (sum / 256)
  | [], _, _ => []
  | _ :: _, [], _ => []

/-- INC's loop: add one to the limb, and go on while it wraps to 0 (R69). -/
def increment : Value → Value
  | [] => []
  | a :: as =>
    let r := BitVec.ofNat 8 ((a.toNat + 1) % 256)
    if r ≠ 0 then r :: as else r :: increment as

/-- ADD vD, vA, vB (R68). -/
def execAdd (d a b : Reg) (s : State) : Result :=
  finish (.add d a b) (s.setReg d (rippleAdd (s.reg a) (s.reg b) 0))

/-- INC vD, vA (R69). -/
def execInc (d a : Reg) (s : State) : Result := finish (.inc d a) (s.setReg d (increment (s.reg a)))

end Sys2Proof.Machine
end

