-- ==== Sys2Proof/Machine/Subtractor.lean ====
section
/-! DEFINITION. The subtractor unit: SUB, DEC, NEG (spec/42_subtractor.md R70 to R73). -/

namespace Sys2Proof.Machine

/-- RippleSub(a, b) with the borrow so far: limb by limb from limb 0, the last borrow discarded (R70). -/
def rippleSub : Value → Value → (borrow : Nat) → Value
  | a :: as, b :: bs, borrow =>
    let t : Int := (a.toNat : Int) - (b.toNat : Int) - (borrow : Int)
    if t < 0 then BitVec.ofNat 8 (t + 256).toNat :: rippleSub as bs 1
    else BitVec.ofNat 8 t.toNat :: rippleSub as bs 0
  | [], _, _ => []
  | _ :: _, [], _ => []

/-- DEC's loop: a zero limb becomes 255 and borrows from the next (R72). -/
def decrement : Value → Value
  | [] => []
  | a :: as => if a ≠ 0 then BitVec.ofNat 8 (a.toNat - 1) :: as else 255#8 :: decrement as

/-- ~v: each limb becomes 255 - limb (R6, R73). -/
def complement (v : Value) : Value := v.map (fun l => BitVec.ofNat 8 (255 - l.toNat))

/-- SUB vD, vA, vB (R71). -/
def execSub (d a b : Reg) (s : State) : Result :=
  finish (.sub d a b) (s.setReg d (rippleSub (s.reg a) (s.reg b) 0))

/-- DEC vD, vA (R72). -/
def execDec (d a : Reg) (s : State) : Result := finish (.dec d a) (s.setReg d (decrement (s.reg a)))

/-- NEG vD, vA: complement, then INC's loop (R73). -/
def execNeg (d a : Reg) (s : State) : Result :=
  finish (.neg d a) (s.setReg d (increment (complement (s.reg a))))

end Sys2Proof.Machine
end

