-- ==== Sys2Proof/Machine/Dispatch.lean ====
section
/-! DEFINITION. One arm per command: the rule of op in the execution cycle (spec/30_encoding.md R50). -/

namespace Sys2Proof.Machine

def exec (i : Instr) (s : State) : Host.Outcome State Fault Refusal :=
  match i with
  -- construction, spec/40_construction.md
  | .zero d => Sys2Proof.Machine.execZero d s
  | .mov d a => Sys2Proof.Machine.execMov d a s
  | .xfer d a => Sys2Proof.Machine.execXfer d a s
  | .ldu8 d lit => Sys2Proof.Machine.execLdu8 d lit s
  | .ldu16 d lit => Sys2Proof.Machine.execLdu16 d lit s
  | .ldu32 d lit => Sys2Proof.Machine.execLdu32 d lit s
  | .ldu64 d lit => Sys2Proof.Machine.execLdu64 d lit s
  | .lds8 d lit => Sys2Proof.Machine.execLds8 d lit s
  | .lds16 d lit => Sys2Proof.Machine.execLds16 d lit s
  | .lds32 d lit => Sys2Proof.Machine.execLds32 d lit s
  | .lds64 d lit => Sys2Proof.Machine.execLds64 d lit s
  -- adder, spec/41_adder.md
  | .add d a b => Sys2Proof.Machine.execAdd d a b s
  | .inc d a => Sys2Proof.Machine.execInc d a s
  -- subtractor, spec/42_subtractor.md
  | .sub d a b => Sys2Proof.Machine.execSub d a b s
  | .dec d a => Sys2Proof.Machine.execDec d a s
  | .neg d a => Sys2Proof.Machine.execNeg d a s
  -- multiplier, spec/43_multiplier.md
  | .mul d a b => Sys2Proof.Machine.execMul d a b s
  -- divider, spec/44_divider.md
  | .divu d a b => Sys2Proof.Machine.execDivu d a b s
  | .remu d a b => Sys2Proof.Machine.execRemu d a b s
  | .divrem d c a b => Sys2Proof.Machine.execDivrem d c a b s
  -- comparator, spec/45_comparator.md
  | .cmp a b => Sys2Proof.Machine.execCmp a b s
  -- renderer, spec/46_renderer.md
  | .render a => Sys2Proof.Machine.execRender a s

end Sys2Proof.Machine
end

