-- ==== Sys2Proof/Machine/Fetch.lean ====
section
/-! DEFINITION. When the block takes a step and of what (spec/30_encoding.md R47, R50), and how a run ends
(spec/70_reset_and_hazards.md R106). -/

namespace Sys2Proof.Machine

/-- What the block finds at CP when it has the turn. -/
inductive Fetched where
  /-- No step: TRAPPED, HALTED, CP = L, or a literal word missing (R50, R102). -/
  | idle
  /-- An illegal command whose command word is w (R48). -/
  | illegal (w : Word)
  | instr (i : Instr)
  | fault (f : Fault)
  | refused (r : Refusal)
  deriving DecidableEq, Repr

/-- The words of the stream from CP on (R28). -/
def State.window (s : State) : List Word := s.stream.drop s.cp.toNat

/-- The command at CP (R47), the model's own stops first (logs 5, 6, 7). -/
def fetch (s : State) : Fetched :=
  if s.run = 3#2 then .fault .reservedRunState
  else if s.cfg = 0 then .refused .zeroLimbs
  else if Memory.wf s.stream = false then .refused .streamTooLong
  else if s.run ≠ RunState.ready.code then .idle
  else
    match s.window with
    | [] => .idle
    | w :: rest =>
      match decode w rest with
      | .wait => .idle
      | .illegal _ => .illegal w
      | .instr i => .instr i

/-- COMPLETED (R106). -/
def State.completed (s : State) : Bool := s.run == RunState.ready.code && s.cp.toNat == s.stream.length

/-- FAULTED (R106). -/
def State.faulted (s : State) : Bool := s.run == RunState.halted.code

/-- The command at CP waits for a literal word (R47, R106). -/
def State.literalMissing (s : State) : Bool :=
  match s.window with
  | [] => false
  | w :: rest => decode w rest == .wait

/-- NOT ENDED, waiting on the host (R106). -/
def State.waitingOnHost (s : State) : Bool :=
  s.run == RunState.trapped.code || (s.run == RunState.ready.code && s.literalMissing)

/-- The stream with ws at word index at, and zero words where it was shorter than that. -/
def placeWords (m : Memory) (at_ : Nat) (ws : List Word) : Memory :=
  m.take at_ ++ List.replicate (at_ - m.length) 0#32 ++ ws ++ m.drop (at_ + ws.length)

end Sys2Proof.Machine
end

