-- ==== Sys2Proof/Machine/HostPort.lean ====
section
/-! DEFINITION. The host's actions, each between two steps of the block (spec/70_reset_and_hazards.md R105). -/

namespace Sys2Proof.Machine

/-- What READ gives back: the current value (R105). -/
def hostRead (s : State) : HostReg → HostData
  | .value r => .limbs (s.reg r)
  | .status => .word s.status
  | .cp => .word s.cp
  | .fcmd => .word s.fcmd
  | .fcp => .word s.fcp
  | .cfg => .word s.cfg
  | .rtext => .text s.rtext s.rlen

/-- SUPPLY: words appended after index L-1 (R39, R105). A stream over 2^32 - 1 words is refused (R11, log 5). -/
def hostSupply (ws : List Word) (s : State) : Result :=
  if Memory.wf (s.stream ++ ws) then .next { s with stream := s.stream ++ ws } else .refused .streamTooLong

/-- A SUPPLY over a byte bus (R24). -/
def hostSupplyBytes (bs : List Byte) (s : State) : Result := hostSupply (wordsOfBytes bs) s

/-- One host action (R105). READ changes nothing (R33); what it gives back is hostRead. -/
def hostStep (a : HostAction) (s : State) : Result :=
  match a with
  | .supply ws => hostSupply ws s
  | .read _ => .next s
  | .resume => .next s.resume
  | .reset => .next s.hostReset

end Sys2Proof.Machine
end

