-- ==== Sys2Proof/Machine/Step.lean ====
section
/-! DEFINITION. One step: the block's execution cycle (spec/30_encoding.md R50) or one host action
(spec/70_reset_and_hazards.md R105), as the schedule says. -/

namespace Sys2Proof.Machine

/-- The block has the turn: Step() of R50. When it takes no step it is idle and holds all state (R102, log 4). -/
def blockStep (s : State) : Host.Outcome State Fault Refusal :=
  match fetch s with
  | .idle => .next s
  | .illegal w => .next (s.enter .halted .illegalCommand w)
  | .instr i => exec i s
  | .fault f => .fault f
  | .refused r => .refused r

/-- One step. An empty schedule leaves the turn to the block. -/
def step (s : State) : Host.Outcome State Fault Refusal :=
  match s.schedule with
  | [] => blockStep s
  | .block :: rest => blockStep { s with schedule := rest }
  | .host a :: rest => hostStep a { s with schedule := rest }

/-- s with the instruction of the opcode table's numbering at CP, the block READY and the turn the block's, so that the
next step fetches and runs it (log 14). -/
def State.withFetchWord (s : State) (nbits w : Nat) : State :=
  { s with
    stream := placeWords s.stream s.cp.toNat (tableWords nbits w)
    status := Status.resume s.status
    schedule := [] }

end Sys2Proof.Machine
end

