-- ==== Sys2Proof/Machine/Assembler.lean ====
section
/-! DEFINITION. The host's assembler and its pseudo-instructions (spec/30_encoding.md R51, R52; log 16). Text is a list
of characters. -/

namespace Sys2Proof

/-! ### Operands and pseudo-instructions on parsed lines -/

/-- An unsigned literal `#n` of width S: 0 <= n < 2^S, no sign (R51). -/
def unsignedLit (S : Nat) (neg : Bool) (n : Nat) : Option (BitVec S) :=
  if neg then none else if n < 2 ^ S then some (BitVec.ofNat S n) else none

/-- A signed literal `#n` of width S: -2^(S-1) <= n < 2^(S-1), as the pattern n mod 2^S (R51). -/
def signedLit (S : Nat) (neg : Bool) (n : Nat) : Option (BitVec S) :=
  if neg then (if n ≤ 2 ^ (S - 1) then some (BitVec.ofInt S (-(n : Int))) else none)
  else if n < 2 ^ (S - 1) then some (BitVec.ofNat S n) else none

/-- One register operand. -/
def asmR (ops : List AsmOperand) (f : Reg → List Instr) : Option (List Instr) :=
  match ops with
  | [.reg d] => some (f d)
  | _ => none

/-- Two register operands. -/
def asmRR (ops : List AsmOperand) (f : Reg → Reg → List Instr) : Option (List Instr) :=
  match ops with
  | [.reg d, .reg a] => some (f d a)
  | _ => none

/-- Three register operands. -/
def asmRRR (ops : List AsmOperand) (f : Reg → Reg → Reg → List Instr) : Option (List Instr) :=
  match ops with
  | [.reg d, .reg a, .reg b] => some (f d a b)
  | _ => none

/-- INC and DEC: two registers, or one that is source and destination (R51, R52). -/
def asmStep (ops : List AsmOperand) (f : Reg → Reg → List Instr) : Option (List Instr) :=
  match ops with
  | [.reg d] => some (f d d)
  | [.reg d, .reg a] => some (f d a)
  | _ => none

/-- A register and an unsigned literal of width S. -/
def asmU (S : Nat) (ops : List AsmOperand) (f : Reg → BitVec S → Instr) : Option (List Instr) :=
  match ops with
  | [.reg d, .lit neg n] => (unsignedLit S neg n).map (fun l => [f d l])
  | _ => none

/-- A register and a signed literal of width S. -/
def asmS (S : Nat) (ops : List AsmOperand) (f : Reg → BitVec S → Instr) : Option (List Instr) :=
  match ops with
  | [.reg d, .lit neg n] => (signedLit S neg n).map (fun l => [f d l])
  | _ => none

/-- LDI: the LDU form of the smallest width that holds n (R52). -/
def asmLdi (ops : List AsmOperand) : Option (List Instr) :=
  match ops with
  | [.reg d, .lit neg n] =>
    if neg then none
    else if n < 2 ^ 8 then some [.ldu8 d (BitVec.ofNat 8 n)]
    else if n < 2 ^ 16 then some [.ldu16 d (BitVec.ofNat 16 n)]
    else if n < 2 ^ 32 then some [.ldu32 d (BitVec.ofNat 32 n)]
    else if n < 2 ^ 64 then some [.ldu64 d (BitVec.ofNat 64 n)]
    else none
  | _ => none

/-- POSTINC and POSTDEC: the copy, then the step on the source; refused for vD = vA (R52). -/
def asmPost (ops : List AsmOperand) (f : Reg → Reg → Instr) : Option (List Instr) :=
  match ops with
  | [.reg d, .reg a] => if d = a then none else some [.mov d a, f a a]
  | _ => none

/-- DIVREM vD, vC, vA, vB; refused for vD = vC (R51). -/
def asmDivrem (ops : List AsmOperand) : Option (List Instr) :=
  match ops with
  | [.reg d, .reg c, .reg a, .reg b] => if d = c then none else some [.divrem d c a b]
  | _ => none

/-- One parsed line: the commands it stands for, none if the assembler refuses it (R51, R52). -/
def assembleOp (op : AsmOp) (ops : List AsmOperand) : Option (List Instr) :=
  match op with
  | .cmd .zero => asmR ops (fun d => [.zero d])
  | .cmd .mov => asmRR ops (fun d a => [.mov d a])
  | .cmd .xfer => asmRR ops (fun d a => [.xfer d a])
  | .cmd .ldu8 => asmU 8 ops .ldu8
  | .cmd .ldu16 => asmU 16 ops .ldu16
  | .cmd .ldu32 => asmU 32 ops .ldu32
  | .cmd .ldu64 => asmU 64 ops .ldu64
  | .cmd .lds8 => asmS 8 ops .lds8
  | .cmd .lds16 => asmS 16 ops .lds16
  | .cmd .lds32 => asmS 32 ops .lds32
  | .cmd .lds64 => asmS 64 ops .lds64
  | .cmd .add => asmRRR ops (fun d a b => [.add d a b])
  | .cmd .inc => asmStep ops (fun d a => [.inc d a])
  | .cmd .sub => asmRRR ops (fun d a b => [.sub d a b])
  | .cmd .dec => asmStep ops (fun d a => [.dec d a])
  | .cmd .neg => asmRR ops (fun d a => [.neg d a])
  | .cmd .mul => asmRRR ops (fun d a b => [.mul d a b])
  | .cmd .divu => asmRRR ops (fun d a b => [.divu d a b])
  | .cmd .remu => asmRRR ops (fun d a b => [.remu d a b])
  | .cmd .divrem => asmDivrem ops
  | .cmd .cmp => asmRR ops (fun a b => [.cmp a b])
  | .cmd .render => asmR ops (fun a => [.render a])
  | .postinc => asmPost ops .inc
  | .postdec => asmPost ops .dec
  | .adda => asmRR ops (fun d b => [.add d d b])
  | .suba => asmRR ops (fun d b => [.sub d d b])
  | .mula => asmRR ops (fun d b => [.mul d d b])
  | .diva => asmRR ops (fun d b => [.divu d d b])
  | .rema => asmRR ops (fun d b => [.remu d d b])
  | .nop => if ops = [] then some [.mov 0 0] else none
  | .ldi => asmLdi ops

/-! ### Text -/

/-- The mnemonics of the commands (R44). -/
def Opcode.mnemonic : Opcode → String
  | .zero => "ZERO"
  | .mov => "MOV"
  | .xfer => "XFER"
  | .ldu8 => "LDU8"
  | .ldu16 => "LDU16"
  | .ldu32 => "LDU32"
  | .ldu64 => "LDU64"
  | .lds8 => "LDS8"
  | .lds16 => "LDS16"
  | .lds32 => "LDS32"
  | .lds64 => "LDS64"
  | .add => "ADD"
  | .inc => "INC"
  | .sub => "SUB"
  | .dec => "DEC"
  | .neg => "NEG"
  | .mul => "MUL"
  | .divu => "DIVU"
  | .remu => "REMU"
  | .divrem => "DIVREM"
  | .cmp => "CMP"
  | .render => "RENDER"

/-- The mnemonics of the assembler (R51, R52). -/
def AsmOp.mnemonic : AsmOp → String
  | .cmd op => op.mnemonic
  | .postinc => "POSTINC"
  | .postdec => "POSTDEC"
  | .adda => "ADDA"
  | .suba => "SUBA"
  | .mula => "MULA"
  | .diva => "DIVA"
  | .rema => "REMA"
  | .nop => "NOP"
  | .ldi => "LDI"

/-- Every mnemonic of the assembler. -/
def AsmOp.all : List AsmOp :=
  Opcode.all.map .cmd ++ [.postinc, .postdec, .adda, .suba, .mula, .diva, .rema, .nop, .ldi]

/-- The register names `v0`..`v15` (R51). -/
def regNames : List String :=
  ["v0", "v1", "v2", "v3", "v4", "v5", "v6", "v7"] ++ ["v8", "v9", "v10", "v11", "v12", "v13", "v14", "v15"]

/-- A blank between tokens. -/
def isBlank (c : Char) : Bool := c == ' ' || c == '\t'

/-- Text without blanks at its ends. -/
def trimBlanks (cs : List Char) : List Char :=
  ((cs.dropWhile isBlank).reverse.dropWhile isBlank).reverse

/-- The parts of a text between commas. -/
def splitCommas : List Char → List (List Char)
  | [] => [[]]
  | c :: cs =>
    match splitCommas cs with
    | [] => [[c]]
    | p :: ps => if c = ',' then [] :: p :: ps else (c :: p) :: ps

/-- A digit's value: 0-9, a-f or A-F. -/
def digitValue (c : Char) : Nat :=
  if 48 ≤ c.toNat ∧ c.toNat ≤ 57 then c.toNat - 48
  else if 97 ≤ c.toNat ∧ c.toNat ≤ 102 then c.toNat - 87
  else if 65 ≤ c.toNat ∧ c.toNat ≤ 70 then c.toNat - 55
  else 16

/-- The number of a text of digits in a base, most significant first. -/
def parseDigits (base : Nat) : (acc : Nat) → List Char → Option Nat
  | acc, [] => some acc
  | acc, c :: cs => if digitValue c < base then parseDigits base (acc * base + digitValue c) cs else none

/-- A number in decimal or `0x` hexadecimal (R51). -/
def parseNumber (cs : List Char) : Option Nat :=
  match cs with
  | [] => none
  | ['0', 'x'] => none
  | '0' :: 'x' :: ds => parseDigits 16 0 ds
  | c :: ds => parseDigits 10 0 (c :: ds)

/-- An operand: a register name or `#` with a literal (R51). -/
def parseOperand (cs : List Char) : Option AsmOperand :=
  match cs with
  | '#' :: '-' :: ds => (parseNumber ds).map (.lit true)
  | '#' :: ds => (parseNumber ds).map (.lit false)
  | _ => (regNames.findIdx? (fun n => n.toList == cs)).bind
      (fun k => if h : k < 16 then some (.reg ⟨k, h⟩) else none)

/-- Operands separated by commas, all of them or none. -/
def parseOperands : List (List Char) → Option (List AsmOperand)
  | [] => some []
  | p :: ps =>
    match parseOperand (trimBlanks p), parseOperands ps with
    | some o, some os => some (o :: os)
    | _, _ => none

/-- One line of assembly: a comment starts with `;`, a line with nothing else stands for no command (R51). -/
def assembleLine (line : List Char) : Option (List Instr) :=
  let text := trimBlanks (line.takeWhile (fun c => c != ';'))
  let name := text.takeWhile (fun c => !isBlank c)
  let args := trimBlanks (text.dropWhile (fun c => !isBlank c))
  if text = [] then some []
  else
    match AsmOp.all.find? (fun o => o.mnemonic.toList == name),
        (if args = [] then some [] else parseOperands (splitCommas args)) with
    | some op, some ops => assembleOp op ops
    | _, _ => none

/-- The commands of the lines of a program, in order. -/
def assembleProgram : List (List Char) → Option (List Instr)
  | [] => some []
  | l :: ls =>
    match assembleLine l, assembleProgram ls with
    | some is, some rest => some (is ++ rest)
    | _, _ => none

/-- The command stream of a program. -/
def assemble (lines : List (List Char)) : Option (List Word) :=
  (assembleProgram lines).map (fun is => is.flatMap encode)

end Sys2Proof
end

