-- ==== Sys2Proof/Safety.lean ====
section
/-! DEFINITION. What statements are made of: the machine's invariant, and what a command leaves unchanged. -/

namespace Sys2Proof.Machine

/-- Every value register holds N limbs (R8, R9). -/
def State.regsWf (s : State) : Prop := ∀ r : Reg, (s.reg r).length = s.limbs

/-- STATUS as R12 lays it out: reserved bits 0, CAUSE at most 4, RUN at most 2, at most one flag set (R13 to R15). -/
structure StatusLegal (w : Word) : Prop where
  reserved3 : w.getLsbD 3 = false
  reservedHigh : w.extractLsb' 10 22 = 0#22
  cause_le : (Status.cause w).toNat ≤ 4
  run_le : (Status.run w).toNat ≤ 2
  eq_or_lt : ¬ (Status.eq w = true ∧ Status.lt w = true)
  eq_or_gt : ¬ (Status.eq w = true ∧ Status.gt w = true)
  lt_or_gt : ¬ (Status.lt w = true ∧ Status.gt w = true)

/-- A byte that R84 makes: `0`-`9` or `a`-`f`. -/
def isHexChar (c : Byte) : Prop := (0x30 ≤ c.toNat ∧ c.toNat ≤ 0x39) ∨ (0x61 ≤ c.toNat ∧ c.toNat ≤ 0x66)

/-- RTEXT is empty, or a canonical hex numeral of at most 2N characters (R19, R85). -/
def textLegal (n : Nat) (t : List Byte) : Prop :=
  t = [] ∨ (1 ≤ t.length ∧ t.length ≤ 2 * n ∧ (∀ c ∈ t, isHexChar c) ∧ (1 < t.length → t.head? ≠ some charZero))

/-- The invariant of the machine: what R8 to R19, R28, R87 to R92 say of every state a run reaches. -/
structure Inv (s : State) : Prop where
  limbs_pos : 1 ≤ s.limbs
  regs : s.regsWf
  stream : Memory.wf s.stream = true
  cp_le : s.cp.toNat ≤ s.stream.length
  status : StatusLegal s.status
  text : textLegal s.limbs s.rtext
  /-- Before the first trap or halt the block is READY and FCMD and FCP are 0 (R14, R16). -/
  clean : s.cause = Cause.none.code → s.run = RunState.ready.code ∧ s.fcmd = 0 ∧ s.fcp = 0
  /-- A recorded trap or halt names a word of the stream (R16). -/
  record : s.cause ≠ Cause.none.code → s.stream[s.fcp.toNat]? = some s.fcmd
  /-- While TRAPPED the cause is DIV_BY_ZERO, while HALTED one of the halts, and CP is at the command (R87 to R89). -/
  stopped : s.run ≠ RunState.ready.code → s.fcp = s.cp
  trapped : s.run = RunState.trapped.code → s.cause = Cause.divByZero.code
  halted : s.run = RunState.halted.code → s.cause ≠ Cause.divByZero.code

/-- Everything but the value registers, STATUS, CP, RTEXT and the draws is unchanged: FCMD, FCP, CFG, the stream, the
schedule. -/
def sameRecord (s t : State) : Prop :=
  t.fcmd = s.fcmd ∧ t.fcp = s.fcp ∧ t.cfg = s.cfg ∧ t.stream = s.stream ∧ t.schedule = s.schedule

/-- The frame of a completed command that writes only the value registers named in ds: every other register, STATUS,
RTEXT, the draws, FCMD, FCP, CFG, the stream (every word of it) and the schedule are unchanged. -/
def onlyRegs (ds : List Reg) (s t : State) : Prop :=
  (∀ r : Reg, r ∉ ds → t.reg r = s.reg r) ∧ t.status = s.status ∧ t.rtext = s.rtext ∧ t.draws = s.draws ∧
    sameRecord s t

/-- The command of length n completed: CP moved past it (R11). -/
def completedBy (n : Nat) (s t : State) : Prop := t.cp = s.cp + BitVec.ofNat 32 n

/-- The command raised a trap or halt and did nothing else (R32, R88, R89): RUN, CAUSE, FCMD, FCP as given, the flags, CP
and all the rest unchanged. -/
def stoppedWith (run : RunState) (cause : Cause) (w : Word) (s t : State) : Prop :=
  t.run = run.code ∧ t.cause = cause.code ∧ t.fcmd = w ∧ t.fcp = s.cp ∧ t.flags = s.flags ∧ t.cp = s.cp ∧
    t.regs = s.regs ∧ t.rtext = s.rtext ∧ t.cfg = s.cfg ∧ t.stream = s.stream ∧ t.draws = s.draws ∧
    t.schedule = s.schedule

/-- The command i ran to its end: CP is past its words, and RUN, CAUSE, FCMD and FCP are untouched (R11). -/
def completed (i : Instr) (s t : State) : Prop :=
  completedBy (encode i).length s t ∧ t.run = s.run ∧ t.cause = s.cause ∧ sameRecord s t

/-! ### Shapes of statements about one command -/

/-- The words of a command, as numbers (R41, R45). -/
def encodesAs (i : Instr) (ws : List Nat) : Prop := (encode i).map BitVec.toNat = ws

/-- The one-word command i completes: register d holds the N-limb value of number n, nothing else changes, CP moves on
by 1. -/
def computes (i : Instr) (d : Reg) (n : Nat) (s : State) : Prop :=
  ∃ t, exec i s = .next t ∧ val (t.reg d) = n ∧ (t.reg d).length = s.limbs ∧ onlyRegs [d] s t ∧ completedBy 1 s t

/-- The literal command i completes: register d holds the N-limb value of number n, nothing else changes, CP moves on
by 3. -/
def widensTo (i : Instr) (d : Reg) (n : Nat) (s : State) : Prop :=
  ∃ t, exec i s = .next t ∧ val (t.reg d) = n ∧ (t.reg d).length = s.limbs ∧ onlyRegs [d] s t ∧ completedBy 3 s t

/-- The command i halts with the cause and does nothing else (R89). -/
def haltsWith (i : Instr) (cause : Cause) (s : State) : Prop :=
  ∃ t, exec i s = .next t ∧ stoppedWith .halted cause i.commandWord s t

/-- The command i traps with the cause and does nothing else (R88). -/
def trapsWith (i : Instr) (cause : Cause) (s : State) : Prop :=
  ∃ t, exec i s = .next t ∧ stoppedWith .trapped cause i.commandWord s t

/-- A literal with a bit set above the width S is illegal with the command word of i (R45, R48). -/
def wideLiteralIllegal (i : Instr) (S : Nat) : Prop :=
  ∀ lo hi : Word, ∀ rest, 2 ^ S ≤ lo.toNat + 2 ^ 32 * hi.toNat →
    decode i.commandWord (lo :: hi :: rest) = .illegal .wideLiteral

/-- WidenU of R57 for the width S and opcode op: the words, the illegal literals, the width halt, and the value. -/
def wideningUnsigned (S op : Nat) (mk : Reg → BitVec S → Instr) : Prop :=
  ∀ (d : Reg) (lit : BitVec S) (s : State),
    encodesAs (mk d lit) [op + 256 * d.val, lit.toNat % 2 ^ 32, lit.toNat / 2 ^ 32] ∧
    wideLiteralIllegal (mk d lit) S ∧
    (8 * s.limbs < S → haltsWith (mk d lit) .contractWidth s) ∧
    (S ≤ 8 * s.limbs → widensTo (mk d lit) d lit.toNat s)

/-- WidenS of R62 for the width S and opcode op: as wideningUnsigned, and a source with bit S-1 set halts, after the
width check. -/
def wideningSigned (S op : Nat) (mk : Reg → BitVec S → Instr) : Prop :=
  ∀ (d : Reg) (lit : BitVec S) (s : State),
    encodesAs (mk d lit) [op + 256 * d.val, lit.toNat % 2 ^ 32, lit.toNat / 2 ^ 32] ∧
    wideLiteralIllegal (mk d lit) S ∧
    (8 * s.limbs < S → haltsWith (mk d lit) .contractWidth s) ∧
    (S ≤ 8 * s.limbs → 2 ^ (S - 1) ≤ lit.toNat → haltsWith (mk d lit) .contractNegative s) ∧
    (S ≤ 8 * s.limbs → lit.toNat < 2 ^ (S - 1) → widensTo (mk d lit) d lit.toNat s)

/-- The literal -n for a signed form of width S, given what the assembler makes of it: in range it is the one command mk
with the pattern 2^S - n, which halts with CONTRACT_NEGATIVE in every state whose N limbs hold S bits; below -2^(S-1) it
is refused (R51, R62). -/
def negativeLiterals (S n : Nat) (assembled : Option (List Instr)) (mk : BitVec S → Instr) : Prop :=
  (n ≤ 2 ^ (S - 1) → ∃ l, assembled = some [mk l] ∧ l.toNat = 2 ^ S - n ∧
    ∀ s : State, S ≤ 8 * s.limbs → haltsWith (mk l) .contractNegative s) ∧
  (2 ^ (S - 1) < n → assembled = none)

/-! ### What the spec's tables say of a command -/

/-- The match and mask columns of R44, in its order. -/
def opcodeRows : List (Word × Word) :=
  [(0x00000001, 0xFFFFF0FF), (0x00000002, 0xFFFF00FF), (0x00000003, 0xFFFF00FF), (0x00000010, 0xFFFFF0FF)] ++
  [(0x00000011, 0xFFFFF0FF), (0x00000012, 0xFFFFF0FF), (0x00000013, 0xFFFFF0FF), (0x00000014, 0xFFFFF0FF)] ++
  [(0x00000015, 0xFFFFF0FF), (0x00000016, 0xFFFFF0FF), (0x00000017, 0xFFFFF0FF), (0x00000020, 0xFFF000FF)] ++
  [(0x00000021, 0xFFFF00FF), (0x00000028, 0xFFF000FF), (0x00000029, 0xFFFF00FF), (0x0000002A, 0xFFFF00FF)] ++
  [(0x00000030, 0xFFF000FF), (0x00000038, 0xFFF000FF), (0x00000039, 0xFFF000FF), (0x0000003A, 0xFF0000FF)] ++
  [(0x00000040, 0xFFF00FFF), (0x00000050, 0xFFFF0FFF)]

/-- An illegal command (R48), said with the table's match and mask: no row matches the word; or it is DIVREM with
D = C; or it is a literal form, OP 0x10..0x17 of width 8 * 2^op[1:0], whose literal has a bit set above that width. -/
def illegalSpelling (w : Word) (rest : List Word) : Prop :=
  (∀ row ∈ opcodeRows, w &&& row.2 ≠ row.1) ∨
  (w.toNat % 256 = 0x3A ∧ w.toNat / 2 ^ 8 % 16 = w.toNat / 2 ^ 20 % 16) ∨
  (w.toNat % 256 / 8 = 2 ∧ ∃ lo hi tl, rest = lo :: hi :: tl ∧
    2 ^ (8 * 2 ^ (w.toNat % 4)) ≤ lo.toNat + 2 ^ 32 * hi.toNat)

/-- The source width S of a literal form (R44, R45). -/
def sourceWidth : Instr → Option Nat
  | .ldu8 _ _ => some 8
  | .ldu16 _ _ => some 16
  | .ldu32 _ _ => some 32
  | .ldu64 _ _ => some 64
  | .lds8 _ _ => some 8
  | .lds16 _ _ => some 16
  | .lds32 _ _ => some 32
  | .lds64 _ _ => some 64
  | .zero _ | .mov _ _ | .xfer _ _ | .add _ _ _ | .inc _ _ | .sub _ _ _ | .dec _ _ | .neg _ _ | .mul _ _ _
  | .divu _ _ _ | .remu _ _ _ | .divrem _ _ _ _ | .cmp _ _ | .render _ => none

/-- A signed literal form whose native source is negative (R62). -/
def negativeSource : Instr → Prop
  | .lds8 _ lit => 2 ^ 7 ≤ lit.toNat
  | .lds16 _ lit => 2 ^ 15 ≤ lit.toNat
  | .lds32 _ lit => 2 ^ 31 ≤ lit.toNat
  | .lds64 _ lit => 2 ^ 63 ≤ lit.toNat
  | .ldu8 _ _ | .ldu16 _ _ | .ldu32 _ _ | .ldu64 _ _ | .zero _ | .mov _ _ | .xfer _ _ | .add _ _ _ | .inc _ _
  | .sub _ _ _ | .dec _ _ | .neg _ _ | .mul _ _ _ | .divu _ _ _ | .remu _ _ _ | .divrem _ _ _ _ | .cmp _ _
  | .render _ => False

/-- The divisor register of a division (R78 to R80). -/
def divisorOf : Instr → Option Reg
  | .divu _ _ b => some b
  | .remu _ _ b => some b
  | .divrem _ _ _ b => some b
  | .ldu8 _ _ | .ldu16 _ _ | .ldu32 _ _ | .ldu64 _ _ | .lds8 _ _ | .lds16 _ _ | .lds32 _ _ | .lds64 _ _ | .zero _
  | .mov _ _ | .xfer _ _ | .add _ _ _ | .inc _ _ | .sub _ _ _ | .dec _ _ | .neg _ _ | .mul _ _ _ | .cmp _ _
  | .render _ => none

/-- The digit of a character that R84 makes. -/
def hexCharValue (c : Byte) : Nat := if c.toNat < 0x61 then c.toNat - 0x30 else c.toNat - 0x61 + 10

/-- The number a hex numeral stands for, most significant digit first. -/
def numeralValue (t : List Byte) : Nat := t.foldl (fun acc c => 16 * acc + hexCharValue c) 0

/-- The block has the next turn, and rest are the turns after it. -/
def blockTurn (s : State) (rest : List Turn) : Prop :=
  s.schedule = .block :: rest ∨ (s.schedule = [] ∧ rest = [])

end Sys2Proof.Machine
end

