-- ==== Sys2Proof/Certificates/Slice0/Obligations.lean ====
section
/-! DEFINITION. The statements about the machine, for the provers. -/

open Sys2Proof Sys2Proof.Machine

/-! ### Encoding -/

/-- R53: the table of worked encodings, both ways. -/
def Obligations.WorkedEncodingsBothWays : Prop :=
  (encode (.add 1 2 3) = [0x00032120] ∧ decode 0x00032120 [] = .instr (.add 1 2 3)) ∧
  (encode (.sub 4 2 1) = [0x00012428] ∧ decode 0x00012428 [] = .instr (.sub 4 2 1)) ∧
  (encode (.inc 3 3) = [0x00003321] ∧ decode 0x00003321 [] = .instr (.inc 3 3)) ∧
  (encode (.divrem 3 4 1 2) = [0x0042133A] ∧ decode 0x0042133A [] = .instr (.divrem 3 4 1 2)) ∧
  (encode (.cmp 5 1) = [0x00015040] ∧ decode 0x00015040 [] = .instr (.cmp 5 1)) ∧
  (encode (.render 3) = [0x00003050] ∧ decode 0x00003050 [] = .instr (.render 3)) ∧
  (encode (.ldu16 1 300) = [0x00000111, 0x0000012C, 0] ∧
    decode 0x00000111 [0x0000012C, 0] = .instr (.ldu16 1 300)) ∧
  (encode (.ldu64 1 0xFFFFFFFFFFFFFFFF) = [0x00000113, 0xFFFFFFFF, 0xFFFFFFFF] ∧
    decode 0x00000113 [0xFFFFFFFF, 0xFFFFFFFF] = .instr (.ldu64 1 0xFFFFFFFFFFFFFFFF))

/-- R41 to R47: decoding the words of a well-formed command gives the command back, with every operand, whatever words
follow in the stream. -/
def Obligations.DecodeOfEncodeIsIdentity : Prop :=
  ∀ (i : Instr) (more : List Word), i.wellFormed = true →
    ∃ w rest, encode i ++ more = w :: rest ∧ decode w rest = .instr i

/-- R43, "each opcode has exactly one legal spelling per choice of its used fields": a decoded command is well formed
and the words it was read from are its encoding. -/
def Obligations.EncodeOfDecodeIsTheWordsRead : Prop :=
  ∀ (w : Word) (rest : List Word) (i : Instr), decode w rest = .instr i →
    i.wellFormed = true ∧ ∃ more, w :: rest = encode i ++ more

/-- R44, R48: the decoder calls illegal exactly what the table's match and mask, the DIVREM rule and the literal rule
call illegal. -/
def Obligations.IllegalExactlyByTheOpcodeTable : Prop :=
  ∀ (w : Word) (rest : List Word), (∃ why, decode w rest = .illegal why) ↔ illegalSpelling w rest

/-- R46: the length follows from OP, and a word that is illegal by itself is so whatever follows it. -/
def Obligations.LengthFollowsFromOpcode : Prop :=
  (∀ (w : Word) (rest : List Word) (i : Instr), decode w rest = .instr i →
    (encode i).length = (if 0x10 ≤ w.toNat % 256 ∧ w.toNat % 256 ≤ 0x17 then 3 else 1)) ∧
  (∀ (w : Word) (rest : List Word) (why : Illegal), decode w [] = .illegal why → decode w rest = .illegal why)

/-- R24: a byte transfer gives the words back, each word little-endian. -/
def Obligations.ByteTransferIsLittleEndian : Prop :=
  (∀ b0 b1 b2 b3 : Byte, (wordOfBytes b0 b1 b2 b3).toNat =
    b0.toNat + 2 ^ 8 * b1.toNat + 2 ^ 16 * b2.toNat + 2 ^ 24 * b3.toNat) ∧
  (∀ ws : List Word, wordsOfBytes (ws.flatMap fun w =>
    [w.extractLsb' 0 8, w.extractLsb' 8 8, w.extractLsb' 16 8, w.extractLsb' 24 8]) = ws)

/-! ### The step -/

/-- R50: when the block has the turn, is READY, and the words at CP decode to a command, the step is exec of that
command; all the step adds is that the turn is used up. -/
def Obligations.StepRunsTheDecodedCommand : Prop :=
  ∀ (s : State) (rest : List Turn) (w : Word) (ws : List Word) (i : Instr),
    blockTurn s rest → s.run = RunState.ready.code → s.cfg ≠ 0 → Memory.wf s.stream = true →
    s.stream.drop s.cp.toNat = w :: ws → decode w ws = .instr i →
    step s = exec i { s with schedule := rest }

/-- R48, R89: when the words at CP are illegal, the step is the halt ILLEGAL_COMMAND with FCMD the command word, and
nothing else. -/
def Obligations.StepHaltsOnAnIllegalCommand : Prop :=
  ∀ (s : State) (rest : List Turn) (w : Word) (ws : List Word),
    blockTurn s rest → s.run = RunState.ready.code → s.cfg ≠ 0 → Memory.wf s.stream = true →
    s.stream.drop s.cp.toNat = w :: ws → illegalSpelling w ws →
    ∃ t, step s = .next t ∧ stoppedWith .halted .illegalCommand w { s with schedule := rest } t

/-- R50, R102: the block's turn changes nothing in TRAPPED, in HALTED, at the end of the stream, or at a literal form
(OP 0x10..0x17, other fields but D zero) with a literal word missing. That such a turn is a step that answers the same
state is the model's choice, log 4. -/
def Obligations.IdleBlockHoldsAllState : Prop :=
  ∀ (s : State) (rest : List Turn),
    blockTurn s rest → s.cfg ≠ 0 → Memory.wf s.stream = true →
    (s.run = RunState.trapped.code ∨ s.run = RunState.halted.code ∨
      (s.run = RunState.ready.code ∧ s.stream.length ≤ s.cp.toNat) ∨
      (s.run = RunState.ready.code ∧ ∃ w ws k, s.stream.drop s.cp.toNat = w :: ws ∧ ws.length < 2 ∧ k < 8 ∧
        w &&& 0xFFFFF0FF#32 = BitVec.ofNat 32 (0x10 + k))) →
    step s = .next { s with schedule := rest }

/-! ### Construction -/

/-- R54. -/
def Obligations.ZeroWritesTheZeroValue : Prop :=
  ∀ (d : Reg) (s : State), encodesAs (.zero d) [0x01 + 256 * d.val] ∧
    ∃ t, exec (.zero d) s = .next t ∧ t.reg d = List.replicate s.limbs 0#8 ∧ val (t.reg d) = 0 ∧
      onlyRegs [d] s t ∧ completedBy 1 s t

/-- R55. -/
def Obligations.MovCopiesTheSource : Prop :=
  ∀ (d a : Reg) (s : State), encodesAs (.mov d a) [0x02 + 256 * d.val + 4096 * a.val] ∧
    ∃ t, exec (.mov d a) s = .next t ∧ t.reg d = s.reg a ∧ onlyRegs [d] s t ∧ completedBy 1 s t

/-- R56: the value moves and the source, D itself when D = A, holds the next draw, N limbs of the opaque constant of
log 2; the statement holds for every value of the model's draw counter and of that constant. -/
def Obligations.XferMovesAndLeavesADraw : Prop :=
  ∀ (d a : Reg) (s : State), encodesAs (.xfer d a) [0x03 + 256 * d.val + 4096 * a.val] ∧
    ∃ t, exec (.xfer d a) s = .next t ∧ (d ≠ a → t.reg d = s.reg a) ∧
      t.reg a = (List.range s.limbs).map (fun k => Config.drawLimb s.draws k) ∧
      (∀ r : Reg, r ∉ [d, a] → t.reg r = s.reg r) ∧ t.status = s.status ∧ t.rtext = s.rtext ∧
      t.draws = s.draws + 1 ∧ sameRecord s t ∧ completedBy 1 s t

/-- R57 to R61: LDU8, LDU16, LDU32, LDU64. -/
def Obligations.UnsignedWidening : Prop :=
  wideningUnsigned 8 0x10 .ldu8 ∧ wideningUnsigned 16 0x11 .ldu16 ∧
    wideningUnsigned 32 0x12 .ldu32 ∧ wideningUnsigned 64 0x13 .ldu64

/-- R62 to R66: LDS8, LDS16, LDS32, LDS64. -/
def Obligations.SignedWideningRefusesNegatives : Prop :=
  wideningSigned 8 0x14 .lds8 ∧ wideningSigned 16 0x15 .lds16 ∧
    wideningSigned 32 0x16 .lds32 ∧ wideningSigned 64 0x17 .lds64

/-! ### Arithmetic -/

/-- R68. -/
def Obligations.AddIsTheSumModuloTwoToTheW : Prop :=
  ∀ (d a b : Reg) (s : State), s.regsWf →
    encodesAs (.add d a b) [0x20 + 256 * d.val + 4096 * a.val + 65536 * b.val] ∧
    computes (.add d a b) d ((val (s.reg a) + val (s.reg b)) % 2 ^ (8 * s.limbs)) s

/-- R69. -/
def Obligations.IncAddsOneModuloTwoToTheW : Prop :=
  ∀ (d a : Reg) (s : State), s.regsWf →
    encodesAs (.inc d a) [0x21 + 256 * d.val + 4096 * a.val] ∧
    computes (.inc d a) d ((val (s.reg a) + 1) % 2 ^ (8 * s.limbs)) s

/-- R71. -/
def Obligations.SubIsTheDifferenceModuloTwoToTheW : Prop :=
  ∀ (d a b : Reg) (s : State), s.regsWf →
    encodesAs (.sub d a b) [0x28 + 256 * d.val + 4096 * a.val + 65536 * b.val] ∧
    computes (.sub d a b) d ((2 ^ (8 * s.limbs) + val (s.reg a) - val (s.reg b)) % 2 ^ (8 * s.limbs)) s

/-- R72. -/
def Obligations.DecSubtractsOneModuloTwoToTheW : Prop :=
  ∀ (d a : Reg) (s : State), s.regsWf →
    encodesAs (.dec d a) [0x29 + 256 * d.val + 4096 * a.val] ∧
    computes (.dec d a) d ((2 ^ (8 * s.limbs) + val (s.reg a) - 1) % 2 ^ (8 * s.limbs)) s

/-- R73. -/
def Obligations.NegIsTheAdditiveInverse : Prop :=
  ∀ (d a : Reg) (s : State), s.regsWf →
    encodesAs (.neg d a) [0x2A + 256 * d.val + 4096 * a.val] ∧
    computes (.neg d a) d ((2 ^ (8 * s.limbs) - val (s.reg a)) % 2 ^ (8 * s.limbs)) s

/-- R75. -/
def Obligations.MulIsTheProductModuloTwoToTheW : Prop :=
  ∀ (d a b : Reg) (s : State), s.regsWf →
    encodesAs (.mul d a b) [0x30 + 256 * d.val + 4096 * a.val + 65536 * b.val] ∧
    computes (.mul d a b) d ((val (s.reg a) * val (s.reg b)) % 2 ^ (8 * s.limbs)) s

/-- R78. -/
def Obligations.DivuIsTheQuotientOrTraps : Prop :=
  ∀ (d a b : Reg) (s : State), s.regsWf →
    encodesAs (.divu d a b) [0x38 + 256 * d.val + 4096 * a.val + 65536 * b.val] ∧
    (val (s.reg b) = 0 → trapsWith (.divu d a b) .divByZero s) ∧
    (val (s.reg b) ≠ 0 → computes (.divu d a b) d (val (s.reg a) / val (s.reg b)) s)

/-- R79. -/
def Obligations.RemuIsTheRemainderOrTraps : Prop :=
  ∀ (d a b : Reg) (s : State), s.regsWf →
    encodesAs (.remu d a b) [0x39 + 256 * d.val + 4096 * a.val + 65536 * b.val] ∧
    (val (s.reg b) = 0 → trapsWith (.remu d a b) .divByZero s) ∧
    (val (s.reg b) ≠ 0 → computes (.remu d a b) d (val (s.reg a) % val (s.reg b)) s)

/-- R80. With D = C the word is illegal for the decoder; that exec, given such a term, halts in the same way is the
model's choice, log 10, and not stated here. -/
def Obligations.DivremIsBothOrTraps : Prop :=
  ∀ (d c a b : Reg) (s : State), s.regsWf →
    encodesAs (.divrem d c a b) [0x3A + 256 * d.val + 4096 * a.val + 65536 * b.val + 1048576 * c.val] ∧
    (d = c → ∀ ws, decode (Instr.divrem d c a b).commandWord ws = .illegal .sameDestination) ∧
    (d ≠ c → val (s.reg b) = 0 → trapsWith (.divrem d c a b) .divByZero s) ∧
    (d ≠ c → val (s.reg b) ≠ 0 → ∃ t, exec (.divrem d c a b) s = .next t ∧
      val (t.reg d) = val (s.reg a) / val (s.reg b) ∧ val (t.reg c) = val (s.reg a) % val (s.reg b) ∧
      (t.reg d).length = s.limbs ∧ (t.reg c).length = s.limbs ∧ onlyRegs [d, c] s t ∧ completedBy 1 s t)

/-- R67, its result: the ripple adder is addition modulo 256^N with a carry in. -/
def Obligations.RippleAddIsModularAddition : Prop :=
  ∀ (a b : Value) (carry : Nat), a.length = b.length → carry ≤ 1 →
    (rippleAdd a b carry).length = a.length ∧
    val (rippleAdd a b carry) = (val a + val b + carry) % 2 ^ (8 * a.length)

/-- R69, R72, R73, the marked identities: INC is RippleAdd(x, 0, 1), DEC is RippleSub(x, 1) and NEG is RippleSub(0, x),
limb for limb. -/
def Obligations.IncDecNegAreRipples : Prop :=
  ∀ (v one : Value), v.length = one.length → val one = 1 →
    increment v = rippleAdd v (zeros v.length) 1 ∧
    decrement v = rippleSub v one 0 ∧
    increment (complement v) = rippleSub (zeros v.length) v 0

/-- R68, R71, R73: (a + b) - b = a, a - a = 0, a + b = b + a, -(-a) = a, limb for limb. -/
def Obligations.AdditiveGroupLaws : Prop :=
  ∀ (a b : Value), a.length = b.length →
    rippleSub (rippleAdd a b 0) b 0 = a ∧ rippleSub a a 0 = zeros a.length ∧
    rippleAdd a b 0 = rippleAdd b a 0 ∧
    increment (complement (increment (complement a))) = a

/-- R75: multiplication commutes and distributes over addition modulo 2^W, limb for limb. -/
def Obligations.MultiplierRingLaws : Prop :=
  ∀ (a b c : Value), a.length = b.length → b.length = c.length →
    schoolbook a b = schoolbook b a ∧
    schoolbook a (rippleAdd b c 0) = rippleAdd (schoolbook a b) (schoolbook a c) 0

/-! ### Division -/

/-- R76. -/
def Obligations.DivModPostcondition : Prop :=
  ∀ (a b : Value), a.length = b.length → val b ≠ 0 →
    val (divMod a b).1 = val a / val b ∧ val a = val (divMod a b).1 * val b + val (divMod a b).2 ∧
    val (divMod a b).2 < val b ∧ val (divMod a b).1 ≤ val a ∧
    (divMod a b).1.length = a.length ∧ (divMod a b).2.length = a.length ∧
    (val a < val b → val (divMod a b).1 = 0 ∧ (divMod a b).2 = a)

/-- R77: the normalized pipeline, with its scaling, trial digits, corrections and add-back, gives exactly the quotient
and remainder of R76. divRef bounds the passes of the correction loop at 256, the model's choice (log 12), and no
command's meaning calls it (log 11). -/
def Obligations.ReferencePipelineIsDivMod : Prop :=
  ∀ (a b : Value), a.length = b.length → val b ≠ 0 → divRef a b = divMod a b

/-- R77, C3: the scale is in 1..128, the scaled divisor does not carry out of its limbs, and its top limb is in
128..255. -/
def Obligations.ScaledDivisorIsNormalized : Prop :=
  ∀ b : Value, val b ≠ 0 →
    1 ≤ scaleOf b ∧ scaleOf b ≤ 128 ∧ (scaledDivisor b).length = sigLimbs b ∧
    val (scaledDivisor b) = scaleOf b * val b ∧
    128 ≤ limbAt (scaledDivisor b) (sigLimbs b - 1)

/-- R77: the correction loop lowers the trial digit at most 2 times when the divisor's top limb is at least 128, however
many passes it may take. -/
def Obligations.TrialDigitLoweredAtMostTwice : Prop :=
  ∀ (vTop vNext uNext passes qhat rhat : Nat), 128 ≤ vTop →
    qhat ≤ (correctDigit vTop vNext uNext passes qhat rhat).1 + 2 ∧
    (correctDigit vTop vNext uNext passes qhat rhat).1 ≤ qhat

/-- Source §8, "(a / b) * b + (a % b) == a": DIVREM, MUL and ADD in a row give the dividend back. -/
def Obligations.DivremThenMulAddGivesTheDividend : Prop :=
  ∀ (q r p a b : Reg) (s : State), s.regsWf → q ≠ r → q ≠ b → r ≠ b → p ≠ r → val (s.reg b) ≠ 0 →
    ∃ s1 s2 s3, exec (.divrem q r a b) s = .next s1 ∧ exec (.mul p q b) s1 = .next s2 ∧
      exec (.add p p r) s2 = .next s3 ∧ s3.reg p = s.reg a ∧ completedBy 3 s s3

/-! ### Comparison and rendering -/

/-- R82. -/
def Obligations.CmpSetsExactlyTheRightFlag : Prop :=
  ∀ (a b : Reg) (s : State), s.regsWf →
    encodesAs (.cmp a b) [0x40 + 4096 * a.val + 65536 * b.val] ∧
    ∃ t, exec (.cmp a b) s = .next t ∧
      t.flags = (decide (val (s.reg a) = val (s.reg b)), decide (val (s.reg a) < val (s.reg b)),
        decide (val (s.reg b) < val (s.reg a))) ∧
      t.cause = s.cause ∧ t.run = s.run ∧ t.status.getLsbD 3 = false ∧ t.status.extractLsb' 10 22 = 0#22 ∧
      t.regs = s.regs ∧ t.rtext = s.rtext ∧ t.draws = s.draws ∧ sameRecord s t ∧ completedBy 1 s t

/-- R81: the limb scan, down to and including limb 0, is the order of the numbers. -/
def Obligations.CompareIsTheUnsignedOrder : Prop :=
  ∀ (a b : Value), a.length = b.length →
    (compareValues a b = .eq ↔ val a = val b) ∧ (compareValues a b = .lt ↔ val a < val b) ∧
    (compareValues a b = .gt ↔ val b < val a)

/-- R83: the six relations read off the flags after CMP, and none with no flag set. -/
def Obligations.RelationsReadOffTheFlags : Prop :=
  (∀ (a b : Reg) (s t : State), s.regsWf → exec (.cmp a b) s = .next t →
    Relation.read .eq t.status = some (decide (val (s.reg a) = val (s.reg b))) ∧
    Relation.read .ne t.status = some (decide (val (s.reg a) ≠ val (s.reg b))) ∧
    Relation.read .lt t.status = some (decide (val (s.reg a) < val (s.reg b))) ∧
    Relation.read .gt t.status = some (decide (val (s.reg b) < val (s.reg a))) ∧
    Relation.read .le t.status = some (decide (val (s.reg a) ≤ val (s.reg b))) ∧
    Relation.read .ge t.status = some (decide (val (s.reg b) ≤ val (s.reg a)))) ∧
  (∀ (r : Relation) (s : State), s.flags = (false, false, false) → Relation.read r s.status = none)

/-- R85: the rendered text is the minimal lowercase hex numeral of the value. -/
def Obligations.RenderIsTheMinimalHexNumeral : Prop :=
  ∀ v : Value, v ≠ [] →
    numeralValue (render v) = val v ∧ (∀ c ∈ render v, isHexChar c) ∧
    (render v).length ≤ 2 * v.length ∧ val v < 16 ^ (render v).length ∧
    (val v = 0 → render v = [0x30#8]) ∧
    (val v ≠ 0 → 1 ≤ (render v).length ∧ 16 ^ ((render v).length - 1) ≤ val v)

/-- R86. -/
def Obligations.RenderReplacesTheWholeText : Prop :=
  ∀ (a : Reg) (s : State), encodesAs (.render a) [0x50 + 4096 * a.val] ∧
    ∃ t, exec (.render a) s = .next t ∧ t.rtext = render (s.reg a) ∧ t.rlen = (render (s.reg a)).length ∧
      t.regs = s.regs ∧ t.status = s.status ∧ t.draws = s.draws ∧ sameRecord s t ∧ completedBy 1 s t

/-- R19. -/
def Obligations.TextWrittenOnlyByRender : Prop :=
  (∀ (i : Instr) (s t : State), (∀ a, i ≠ .render a) → exec i s = .next t → t.rtext = s.rtext) ∧
  (∀ (a : Reg) (s t : State), s.regsWf → 1 ≤ s.limbs → exec (.render a) s = .next t →
    t.rtext = render (s.reg a) ∧ 1 ≤ t.rlen ∧ t.rlen ≤ 2 * s.limbs ∧ ∀ c ∈ t.rtext, isHexChar c) ∧
  (∀ s : State, s.hostReset.rtext = [] ∧ s.hostReset.rlen = 0)

/-! ### Traps, halts and the whole machine -/

/-- R11, R32, R88, R89: every command answers a next state, and either completes, CP past its words and RUN, CAUSE, FCMD
and FCP untouched, or stops with its trap or halt recorded and nothing else changed. -/
def Obligations.EveryCommandCompletesOrStopsCleanly : Prop :=
  ∀ (i : Instr) (s : State), ∃ t, exec i s = .next t ∧
    (completed i s t ∨
      ∃ run cause, run ≠ .ready ∧ cause ≠ .none ∧ stoppedWith run cause i.commandWord s t)

/-- R87, R90: which command raises which cause, exactly. -/
def Obligations.CausesRaisedExactlyAsTabled : Prop :=
  ∀ (i : Instr) (s t : State), i.wellFormed = true → s.run = RunState.ready.code → exec i s = .next t →
    (t.run = RunState.trapped.code ↔ ∃ b, divisorOf i = some b ∧ val (s.reg b) = 0) ∧
    (t.run = RunState.trapped.code → t.cause = Cause.divByZero.code) ∧
    (t.run = RunState.halted.code ∧ t.cause = Cause.contractWidth.code ↔
      ∃ S, sourceWidth i = some S ∧ 8 * s.limbs < S) ∧
    (t.run = RunState.halted.code ∧ t.cause = Cause.contractNegative.code ↔
      ∃ S, sourceWidth i = some S ∧ S ≤ 8 * s.limbs ∧ negativeSource i) ∧
    (t.run = RunState.halted.code → t.cause = Cause.contractWidth.code ∨ t.cause = Cause.contractNegative.code)

/-- R89, R93: while HALTED, whatever the turn but RESET, and while TRAPPED, whatever the turn but RESET and RESUME,
nothing changes but the stream the host appends to and the turns used up. -/
def Obligations.StoppedBlockExecutesNothing : Prop :=
  ∀ s t : State,
    (s.run = RunState.halted.code ∨
      (s.run = RunState.trapped.code ∧ s.schedule.head? ≠ some (.host .resume))) →
    s.schedule.head? ≠ some (.host .reset) → step s = .next t →
    s.stream <+: t.stream ∧ t = { s with stream := t.stream, schedule := s.schedule.tail }

/-- R92: RESUME. -/
def Obligations.ResumeSkipsTheTrappedCommand : Prop :=
  ∀ s : State,
    (s.run = RunState.trapped.code →
      s.resume.run = RunState.ready.code ∧ s.resume.cp = s.fcp + 1 ∧ s.resume.cause = s.cause ∧
      s.resume.flags = s.flags ∧ s.resume.fcmd = s.fcmd ∧ s.resume.fcp = s.fcp ∧ s.resume.regs = s.regs ∧
      s.resume.rtext = s.rtext ∧ s.resume.cfg = s.cfg ∧ s.resume.stream = s.stream ∧
      s.resume.draws = s.draws ∧ s.resume.schedule = s.schedule) ∧
    (s.run ≠ RunState.trapped.code → s.resume = s) ∧
    (∀ rest, s.schedule = .host .resume :: rest → step s = .next ({ s with schedule := rest } : State).resume)

/-- R21, R103: what reset leaves, from any state and at power-on, for every N. -/
def Obligations.ResetValuesFromAnyState : Prop :=
  (∀ s : State, (∀ r : Reg, s.hostReset.reg r = List.replicate s.limbs 0#8) ∧ s.hostReset.cp = 0 ∧
    s.hostReset.status = 0 ∧ s.hostReset.fcmd = 0 ∧ s.hostReset.fcp = 0 ∧ s.hostReset.cfg = s.cfg ∧
    s.hostReset.rtext = [] ∧ s.hostReset.rlen = 0 ∧ s.hostReset.stream = [] ∧
    s.hostReset.flags = (false, false, false) ∧ s.hostReset.cause = Cause.none.code ∧
    s.hostReset.run = RunState.ready.code) ∧
  (∀ n : Word, (∀ r : Reg, (State.resetWith n).reg r = List.replicate n.toNat 0#8) ∧ (State.resetWith n).cp = 0 ∧
    (State.resetWith n).status = 0 ∧ (State.resetWith n).fcmd = 0 ∧ (State.resetWith n).fcp = 0 ∧
    (State.resetWith n).cfg = n ∧ (State.resetWith n).rtext = [] ∧ (State.resetWith n).rlen = 0 ∧
    (State.resetWith n).stream = []) ∧
  (∀ (s : State) (rest : List Turn), s.schedule = .host .reset :: rest →
    step s = .next ({ s with schedule := rest } : State).hostReset)

/-- R39, R105: SUPPLY appends and changes nothing else; a stream over 2^32 - 1 words is refused (R11). -/
def Obligations.SupplyAppendsOrIsRefused : Prop :=
  ∀ (s : State) (ws : List Word) (rest : List Turn), s.schedule = .host (.supply ws) :: rest →
    (s.stream.length + ws.length ≤ 2 ^ 32 - 1 →
      step s = .next { s with stream := s.stream ++ ws, schedule := rest }) ∧
    (2 ^ 32 - 1 < s.stream.length + ws.length → step s = .refused .streamTooLong)

/-- R33, R105: READ changes nothing, so every register reads the same after it. -/
def Obligations.ReadHasNoSideEffect : Prop :=
  ∀ (s : State) (r : HostReg) (rest : List Turn), s.schedule = .host (.read r) :: rest →
    step s = .next { s with schedule := rest } ∧
    ∀ q, hostRead { s with schedule := rest } q = hostRead s q

/-- The invariant of the machine is kept by every step, the block's and the host's, from every state that meets it. -/
def Obligations.EveryStepKeepsTheInvariant : Prop :=
  ∀ s t : State, Inv s → step s = .next t → Inv t

/-- Reset meets the invariant, for every N in 1..2^32 - 1, and State.reset, whose N = 8 is the model's choice (log 1), is
one of these states. -/
def Obligations.ResetMeetsTheInvariant : Prop :=
  (∀ n : Word, n ≠ 0 → Inv (State.resetWith n)) ∧ Inv State.reset

/-- From a state that meets the invariant no step faults, and none is refused but a SUPPLY past 2^32 - 1 words. -/
def Obligations.InvariantStatesNeverStop : Prop :=
  ∀ s : State, Inv s →
    (∀ ws rest, s.schedule = .host (.supply ws) :: rest → s.stream.length + ws.length ≤ 2 ^ 32 - 1) →
    ∃ t, step s = .next t

/-- R13. -/
def Obligations.FlagsWrittenOnlyByCmp : Prop :=
  (∀ (a b : Reg) (s t : State), exec (.cmp a b) s = .next t →
    t.flags = (true, false, false) ∨ t.flags = (false, true, false) ∨ t.flags = (false, false, true)) ∧
  (∀ (i : Instr) (s t : State), (∀ a b, i ≠ .cmp a b) → exec i s = .next t → t.flags = s.flags) ∧
  (∀ (s : State) (run : RunState) (cause : Cause) (w : Word), (s.enter run cause w).flags = s.flags) ∧
  (∀ n : Word, (State.resetWith n).flags = (false, false, false))

/-- R14, R16: but for RESET, a step leaves CAUSE, FCMD and FCP alone or is the entry of a trap or halt at CP that records
the word of the stream there. -/
def Obligations.RecordNamesTheStoppedCommand : Prop :=
  ∀ s t : State, s.schedule.head? ≠ some (.host .reset) → step s = .next t →
    (t.cause = s.cause ∧ t.fcmd = s.fcmd ∧ t.fcp = s.fcp) ∨
    (s.run = RunState.ready.code ∧ t.run ≠ RunState.ready.code ∧ t.cause ≠ Cause.none.code ∧
      t.fcp = s.cp ∧ t.cp = s.cp ∧ s.stream[s.cp.toNat]? = some t.fcmd)

/-- R17, R2: no step changes CFG, so N is fixed while the block runs; the host reads it from CFG. -/
def Obligations.WidthNeverChanges : Prop :=
  ∀ s t : State, step s = .next t → t.cfg = s.cfg ∧ t.limbs = s.limbs ∧ hostRead t .cfg = hostRead s .cfg

/-- R39: no step alters a word of the stream that is already there; only RESET discards it. -/
def Obligations.StreamIsAppendOnly : Prop :=
  ∀ s t : State, s.schedule.head? ≠ some (.host .reset) → step s = .next t → s.stream <+: t.stream

/-- R33: every command but XFER neither uses nor takes a draw. -/
def Obligations.OnlyXferDraws : Prop :=
  ∀ (i : Instr) (s : State) (n : Nat), (∀ d a, i ≠ .xfer d a) →
    ∃ t, exec i s = .next t ∧ t.draws = s.draws ∧ exec i { s with draws := n } = .next { t with draws := n }

/-- R8, R13, R83, R95: the outcome of a command depends on the value registers and N alone: from two states that agree
on them, whatever their flags, trap record, CP, text, stream and turns, the command writes the same value registers, CMP
the same flags and RENDER the same text, and it completes in both or stops in both with the same trap or halt. For XFER
alone the two states also hold the same draw counter: that equal counters give equal draws is the model's choice (log 2),
no rule of the spec. -/
def Obligations.ResultsIgnoreControlState : Prop :=
  ∀ (i : Instr) (s s' : State), s.regs = s'.regs → s.cfg = s'.cfg → (∀ d a, i = .xfer d a → s.draws = s'.draws) →
    ∃ t t', exec i s = .next t ∧ exec i s' = .next t' ∧ t.regs = t'.regs ∧
      (s.draws = s'.draws → t.draws = t'.draws) ∧
      (∀ a b, i = .cmp a b → t.flags = t'.flags) ∧
      ((∀ a b, i ≠ .cmp a b) → t.flags = s.flags ∧ t'.flags = s'.flags) ∧
      (∀ a, i = .render a → t.rtext = t'.rtext) ∧
      ((∀ a, i ≠ .render a) → t.rtext = s.rtext ∧ t'.rtext = s'.rtext) ∧
      ((completed i s t ∧ completed i s' t') ∨
        ∃ run cause, run ≠ .ready ∧ cause ≠ .none ∧
          stoppedWith run cause i.commandWord s t ∧ stoppedWith run cause i.commandWord s' t')

/-- R10, R11, R92, R97: CP never wraps and never goes back but by RESET, and one step moves it by at most 3 words. -/
def Obligations.CommandPointerNeverGoesBack : Prop :=
  ∀ s t : State, Inv s → s.schedule.head? ≠ some (.host .reset) → step s = .next t →
    s.cp.toNat ≤ t.cp.toNat ∧ t.cp.toNat ≤ s.cp.toNat + 3 ∧ t.cp.toNat ≤ t.stream.length

/-! ### The assembler -/

/-- R52: POSTINC and POSTDEC give vD the old value and step vA. -/
def Obligations.PostfixFormsYieldTheOldValue : Prop :=
  ∀ d a : Reg, d ≠ a → ∀ s : State, s.regsWf →
    (∃ i1 i2 s1 s2, assembleOp .postinc [.reg d, .reg a] = some [i1, i2] ∧ exec i1 s = .next s1 ∧
      exec i2 s1 = .next s2 ∧ s2.reg d = s.reg a ∧
      val (s2.reg a) = (val (s.reg a) + 1) % 2 ^ (8 * s.limbs) ∧ onlyRegs [d, a] s s2 ∧ completedBy 2 s s2) ∧
    (∃ i1 i2 s1 s2, assembleOp .postdec [.reg d, .reg a] = some [i1, i2] ∧ exec i1 s = .next s1 ∧
      exec i2 s1 = .next s2 ∧ s2.reg d = s.reg a ∧
      val (s2.reg a) = (2 ^ (8 * s.limbs) + val (s.reg a) - 1) % 2 ^ (8 * s.limbs) ∧
      onlyRegs [d, a] s s2 ∧ completedBy 2 s s2)

/-- R52, R55: NOP is MOV v0, v0, and MOV vX, vX changes no state except CP. -/
def Obligations.NopChangesOnlyTheCommandPointer : Prop :=
  assembleOp .nop [] = some [.mov 0 0] ∧
  ∀ (d : Reg) (s : State), exec (.mov d d) s = .next { s with cp := s.cp + 1 }

/-- R52: LDI takes the smallest width that holds n, and refuses n >= 2^64 and negative n. -/
def Obligations.LdiPicksTheSmallestWidth : Prop :=
  (∀ (d : Reg) (n : Nat), n < 2 ^ 64 → ∃ i S, assembleOp .ldi [.reg d, .lit false n] = some [i] ∧
    sourceWidth i = some S ∧ n < 2 ^ S ∧ (∀ S' ∈ [8, 16, 32, 64], n < 2 ^ S' → S ≤ S') ∧
    (∃ op, 0x10 ≤ op ∧ op ≤ 0x13 ∧ encodesAs i [op + 256 * d.val, n % 2 ^ 32, n / 2 ^ 32])) ∧
  (∀ (d : Reg) (n : Nat), 2 ^ 64 ≤ n → assembleOp .ldi [.reg d, .lit false n] = none) ∧
  (∀ (d : Reg) (n : Nat), assembleOp .ldi [.reg d, .lit true n] = none)

/-- R51: a negative LDS literal in range is the pattern n mod 2^S, whatever N, and the block then halts on it with
CONTRACT_NEGATIVE wherever the width fits, S <= 8N; a negative literal below -2^(S-1) is refused. -/
def Obligations.NegativeLiteralsAreEncodedAndHalt : Prop :=
  ∀ (d : Reg) (n : Nat), 1 ≤ n →
    negativeLiterals 8 n (assembleOp (.cmd .lds8) [.reg d, .lit true n]) (.lds8 d) ∧
    negativeLiterals 16 n (assembleOp (.cmd .lds16) [.reg d, .lit true n]) (.lds16 d) ∧
    negativeLiterals 32 n (assembleOp (.cmd .lds32) [.reg d, .lit true n]) (.lds32 d) ∧
    negativeLiterals 64 n (assembleOp (.cmd .lds64) [.reg d, .lit true n]) (.lds64 d)
end

