-- ==== Sys2Proof/Laws/Encoding.lean ====
section
/-! SUPPORT. The fields of a packed command word and the opcode map's two directions (spec/30_encoding.md R41, R44). -/

namespace Sys2Proof

@[simp] theorem regOfBits_bitsOfReg (r : Reg) : regOfBits (bitsOfReg r) = r := by revert r; decide

@[simp] theorem bitsOfReg_regOfBits (b : BitVec 4) : bitsOfReg (regOfBits b) = b := by revert b; decide

section
variable (op : BitVec 8) (d a b c : Reg)

@[simp] theorem opField_packWord : opField (packWord op d a b c) = op := by
  apply BitVec.eq_of_getLsbD_eq
  intro k hk
  simp only [opField, packWord, BitVec.getLsbD_extractLsb', BitVec.getLsbD_append]
  interval_cases k <;> simp

@[simp] theorem rsvField_packWord : rsvField (packWord op d a b c) = 0 := by
  apply BitVec.eq_of_getLsbD_eq
  intro k hk
  simp only [rsvField, packWord, BitVec.getLsbD_extractLsb', BitVec.getLsbD_append]
  interval_cases k <;> simp

@[simp] theorem dField_packWord : dField (packWord op d a b c) = d := by
  rw [dField, ← regOfBits_bitsOfReg d]
  congr 1
  apply BitVec.eq_of_getLsbD_eq
  intro k hk
  simp only [packWord, BitVec.getLsbD_extractLsb', BitVec.getLsbD_append, regOfBits_bitsOfReg]
  interval_cases k <;> simp

@[simp] theorem aField_packWord : aField (packWord op d a b c) = a := by
  rw [aField, ← regOfBits_bitsOfReg a]
  congr 1
  apply BitVec.eq_of_getLsbD_eq
  intro k hk
  simp only [packWord, BitVec.getLsbD_extractLsb', BitVec.getLsbD_append, regOfBits_bitsOfReg]
  interval_cases k <;> simp

@[simp] theorem bField_packWord : bField (packWord op d a b c) = b := by
  rw [bField, ← regOfBits_bitsOfReg b]
  congr 1
  apply BitVec.eq_of_getLsbD_eq
  intro k hk
  simp only [packWord, BitVec.getLsbD_extractLsb', BitVec.getLsbD_append, regOfBits_bitsOfReg]
  interval_cases k <;> simp

@[simp] theorem cField_packWord : cField (packWord op d a b c) = c := by
  rw [cField, ← regOfBits_bitsOfReg c]
  congr 1
  apply BitVec.eq_of_getLsbD_eq
  intro k hk
  simp only [packWord, BitVec.getLsbD_extractLsb', BitVec.getLsbD_append, regOfBits_bitsOfReg]
  interval_cases k <;> simp

end

/-- A word with RSV = 0 is packed from its own fields. -/
theorem packWord_fields {w : Word} (h : rsvField w = 0) :
    packWord (opField w) (dField w) (aField w) (bField w) (cField w) = w := by
  apply BitVec.eq_of_getLsbD_eq
  intro k hk
  have hr : ∀ j < 8, w.getLsbD (24 + j) = false := by
    intro j hj
    have := congrArg (fun v => v.getLsbD j) h
    simpa [rsvField, hj] using this
  simp only [packWord, opField, dField, aField, bField, cField, bitsOfReg_regOfBits,
    BitVec.getLsbD_append, BitVec.getLsbD_extractLsb']
  by_cases hlt : k < 24
  · interval_cases k <;> simp
  · have := hr (k - 24) (by omega)
    rw [show 24 + (k - 24) = k by omega] at this
    rw [this]
    interval_cases k <;> simp

@[simp] theorem ofCode_code (o : Opcode) : Opcode.ofCode o.code = some o := by cases o <;> decide

theorem code_of_ofCode {c : BitVec 8} {o : Opcode} (h : Opcode.ofCode c = some o) : o.code = c := by
  have := List.find?_some h
  simpa using this

theorem ofCode_eq_none {c : BitVec 8} : Opcode.ofCode c = none ↔ ∀ o : Opcode, o.code ≠ c := by
  constructor
  · intro h o ho
    subst ho
    rw [ofCode_code] at h
    cases h
  · intro h
    cases ho : Opcode.ofCode c with
    | none => rfl
    | some o => exact absurd (code_of_ofCode ho) (h o)

/-- A literal's two words give it back, with nothing above its width. -/
theorem literalWords_append {S : Nat} (lit : BitVec S) :
    ∃ lo hi, literalWords lit = [lo, hi] ∧ (hi ++ lo : BitVec 64) = lit.setWidth 64 := by
  refine ⟨_, _, rfl, ?_⟩
  apply BitVec.eq_of_getLsbD_eq
  intro k hk
  simp only [BitVec.getLsbD_append, BitVec.getLsbD_extractLsb']
  by_cases h : k < 32
  · simp [h]
  · simp [h, show 32 + (k - 32) = k by omega, show k - 32 < 32 by omega]

/-- The two words of a 64-bit literal, low and high. -/
@[simp] theorem low_of_append (lo hi : Word) : (hi ++ lo : BitVec 64).extractLsb' 0 32 = lo := by
  apply BitVec.eq_of_getLsbD_eq
  intro k hk
  rw [BitVec.getLsbD_extractLsb', BitVec.getLsbD_append]
  simp [hk]

@[simp] theorem high_of_append (lo hi : Word) : (hi ++ lo : BitVec 64).extractLsb' 32 32 = hi := by
  apply BitVec.eq_of_getLsbD_eq
  intro k hk
  rw [BitVec.getLsbD_extractLsb', BitVec.getLsbD_append]
  simp [hk]

theorem words_le_three (o : Opcode) : o.words ≤ 3 := by cases o <;> decide

/-- Decoding starts with the three checks of R47 on the command word. -/
theorem decode_of_fields {w : Word} {rest : List Word} {op : Opcode} (h1 : Opcode.ofCode (opField w) = some op)
    (h2 : rsvField w = 0) (h3 : op.unusedNonzero w = false) : decode w rest = decodeOperands op w rest := by
  simp [decode, h1, h2, h3]

/-- The checks a decoded command passed. -/
theorem decode_instr {w : Word} {rest : List Word} {i : Instr} (h : decode w rest = .instr i) :
    ∃ op, Opcode.ofCode (opField w) = some op ∧ rsvField w = 0 ∧ op.unusedNonzero w = false ∧
      decodeOperands op w rest = .instr i := by
  unfold decode at h
  split at h
  · cases h
  · next op hop =>
    split at h
    · cases h
    · next hr =>
      split at h
      · cases h
      · next hu => exact ⟨op, hop, by simpa using hr, by simpa using hu, h⟩

end Sys2Proof
end

