-- ==== Sys2Proof/Laws/State.lean ====
section
/-! SUPPORT. One lemma per field per update of State, so that no proof unfolds a record update. -/

namespace Sys2Proof.Machine

variable (s : State)

/-! ### Registers read back -/

@[simp] theorem reg_setReg_same (r : Reg) (v : Value) : (s.setReg r v).reg r = v := by
  simp [State.reg, State.setReg]

theorem reg_setReg_of_ne {r q : Reg} (h : q ≠ r) (v : Value) : (s.setReg r v).reg q = s.reg q := by
  have : r.val ≠ q.val := fun e => h (Fin.ext e.symm)
  simp [State.reg, State.setReg, this]

theorem reg_setReg (r q : Reg) (v : Value) : (s.setReg r v).reg q = if q = r then v else s.reg q := by
  by_cases h : q = r
  · subst h; simp
  · simp [h, reg_setReg_of_ne]

theorem reg_resetWith (n : Word) (r : Reg) : (State.resetWith n).reg r = zeros n.toNat := by
  simp [State.reg, State.resetWith, zeros]

/-! ### setReg -/

@[simp] theorem regs_setReg (r : Reg) (v : Value) : (s.setReg r v).regs = s.regs.set r.val v := rfl

@[simp] theorem cp_setReg (r : Reg) (v : Value) : (s.setReg r v).cp = s.cp := rfl

@[simp] theorem status_setReg (r : Reg) (v : Value) : (s.setReg r v).status = s.status := rfl

@[simp] theorem fcmd_setReg (r : Reg) (v : Value) : (s.setReg r v).fcmd = s.fcmd := rfl

@[simp] theorem fcp_setReg (r : Reg) (v : Value) : (s.setReg r v).fcp = s.fcp := rfl

@[simp] theorem cfg_setReg (r : Reg) (v : Value) : (s.setReg r v).cfg = s.cfg := rfl

@[simp] theorem rtext_setReg (r : Reg) (v : Value) : (s.setReg r v).rtext = s.rtext := rfl

@[simp] theorem stream_setReg (r : Reg) (v : Value) : (s.setReg r v).stream = s.stream := rfl

@[simp] theorem draws_setReg (r : Reg) (v : Value) : (s.setReg r v).draws = s.draws := rfl

@[simp] theorem schedule_setReg (r : Reg) (v : Value) : (s.setReg r v).schedule = s.schedule := rfl

@[simp] theorem limbs_setReg (r : Reg) (v : Value) : (s.setReg r v).limbs = s.limbs := rfl

@[simp] theorem run_setReg (r : Reg) (v : Value) : (s.setReg r v).run = s.run := rfl

@[simp] theorem cause_setReg (r : Reg) (v : Value) : (s.setReg r v).cause = s.cause := rfl

@[simp] theorem flags_setReg (r : Reg) (v : Value) : (s.setReg r v).flags = s.flags := rfl

/-! ### advance -/

@[simp] theorem regs_advance (n : Nat) : (s.advance n).regs = s.regs := rfl

@[simp] theorem cp_advance (n : Nat) : (s.advance n).cp = s.cp + BitVec.ofNat 32 n := rfl

@[simp] theorem status_advance (n : Nat) : (s.advance n).status = s.status := rfl

@[simp] theorem fcmd_advance (n : Nat) : (s.advance n).fcmd = s.fcmd := rfl

@[simp] theorem fcp_advance (n : Nat) : (s.advance n).fcp = s.fcp := rfl

@[simp] theorem cfg_advance (n : Nat) : (s.advance n).cfg = s.cfg := rfl

@[simp] theorem rtext_advance (n : Nat) : (s.advance n).rtext = s.rtext := rfl

@[simp] theorem stream_advance (n : Nat) : (s.advance n).stream = s.stream := rfl

@[simp] theorem draws_advance (n : Nat) : (s.advance n).draws = s.draws := rfl

@[simp] theorem schedule_advance (n : Nat) : (s.advance n).schedule = s.schedule := rfl

@[simp] theorem limbs_advance (n : Nat) : (s.advance n).limbs = s.limbs := rfl

@[simp] theorem reg_advance (n : Nat) (q : Reg) : (s.advance n).reg q = s.reg q := rfl

@[simp] theorem run_advance (n : Nat) : (s.advance n).run = s.run := rfl

@[simp] theorem cause_advance (n : Nat) : (s.advance n).cause = s.cause := rfl

@[simp] theorem flags_advance (n : Nat) : (s.advance n).flags = s.flags := rfl

/-! ### enter -/

@[simp] theorem regs_enter (run : RunState) (cause : Cause) (w : Word) : (s.enter run cause w).regs = s.regs := rfl

@[simp] theorem cp_enter (run : RunState) (cause : Cause) (w : Word) : (s.enter run cause w).cp = s.cp := rfl

@[simp] theorem status_enter (run : RunState) (cause : Cause) (w : Word) : (s.enter run cause w).status = Status.enter s.status run cause := rfl

@[simp] theorem fcmd_enter (run : RunState) (cause : Cause) (w : Word) : (s.enter run cause w).fcmd = w := rfl

@[simp] theorem fcp_enter (run : RunState) (cause : Cause) (w : Word) : (s.enter run cause w).fcp = s.cp := rfl

@[simp] theorem cfg_enter (run : RunState) (cause : Cause) (w : Word) : (s.enter run cause w).cfg = s.cfg := rfl

@[simp] theorem rtext_enter (run : RunState) (cause : Cause) (w : Word) : (s.enter run cause w).rtext = s.rtext := rfl

@[simp] theorem stream_enter (run : RunState) (cause : Cause) (w : Word) : (s.enter run cause w).stream = s.stream := rfl

@[simp] theorem draws_enter (run : RunState) (cause : Cause) (w : Word) : (s.enter run cause w).draws = s.draws := rfl

@[simp] theorem schedule_enter (run : RunState) (cause : Cause) (w : Word) : (s.enter run cause w).schedule = s.schedule := rfl

@[simp] theorem limbs_enter (run : RunState) (cause : Cause) (w : Word) : (s.enter run cause w).limbs = s.limbs := rfl

@[simp] theorem reg_enter (run : RunState) (cause : Cause) (w : Word) (q : Reg) : (s.enter run cause w).reg q = s.reg q := rfl

/-! ### setText -/

@[simp] theorem regs_setText (t : List Byte) : (s.setText t).regs = s.regs := rfl

@[simp] theorem cp_setText (t : List Byte) : (s.setText t).cp = s.cp := rfl

@[simp] theorem status_setText (t : List Byte) : (s.setText t).status = s.status := rfl

@[simp] theorem fcmd_setText (t : List Byte) : (s.setText t).fcmd = s.fcmd := rfl

@[simp] theorem fcp_setText (t : List Byte) : (s.setText t).fcp = s.fcp := rfl

@[simp] theorem cfg_setText (t : List Byte) : (s.setText t).cfg = s.cfg := rfl

@[simp] theorem rtext_setText (t : List Byte) : (s.setText t).rtext = t := rfl

@[simp] theorem stream_setText (t : List Byte) : (s.setText t).stream = s.stream := rfl

@[simp] theorem draws_setText (t : List Byte) : (s.setText t).draws = s.draws := rfl

@[simp] theorem schedule_setText (t : List Byte) : (s.setText t).schedule = s.schedule := rfl

@[simp] theorem limbs_setText (t : List Byte) : (s.setText t).limbs = s.limbs := rfl

@[simp] theorem reg_setText (t : List Byte) (q : Reg) : (s.setText t).reg q = s.reg q := rfl

@[simp] theorem run_setText (t : List Byte) : (s.setText t).run = s.run := rfl

@[simp] theorem cause_setText (t : List Byte) : (s.setText t).cause = s.cause := rfl

@[simp] theorem flags_setText (t : List Byte) : (s.setText t).flags = s.flags := rfl

/-! ### setFlags -/

@[simp] theorem regs_setFlags (o : Ordering) : (s.setFlags o).regs = s.regs := rfl

@[simp] theorem cp_setFlags (o : Ordering) : (s.setFlags o).cp = s.cp := rfl

@[simp] theorem status_setFlags (o : Ordering) : (s.setFlags o).status = Status.setFlags s.status o := rfl

@[simp] theorem fcmd_setFlags (o : Ordering) : (s.setFlags o).fcmd = s.fcmd := rfl

@[simp] theorem fcp_setFlags (o : Ordering) : (s.setFlags o).fcp = s.fcp := rfl

@[simp] theorem cfg_setFlags (o : Ordering) : (s.setFlags o).cfg = s.cfg := rfl

@[simp] theorem rtext_setFlags (o : Ordering) : (s.setFlags o).rtext = s.rtext := rfl

@[simp] theorem stream_setFlags (o : Ordering) : (s.setFlags o).stream = s.stream := rfl

@[simp] theorem draws_setFlags (o : Ordering) : (s.setFlags o).draws = s.draws := rfl

@[simp] theorem schedule_setFlags (o : Ordering) : (s.setFlags o).schedule = s.schedule := rfl

@[simp] theorem limbs_setFlags (o : Ordering) : (s.setFlags o).limbs = s.limbs := rfl

@[simp] theorem reg_setFlags (o : Ordering) (q : Reg) : (s.setFlags o).reg q = s.reg q := rfl

/-! ### drawn -/

@[simp] theorem regs_drawn : s.drawn.regs = s.regs := rfl

@[simp] theorem cp_drawn : s.drawn.cp = s.cp := rfl

@[simp] theorem status_drawn : s.drawn.status = s.status := rfl

@[simp] theorem fcmd_drawn : s.drawn.fcmd = s.fcmd := rfl

@[simp] theorem fcp_drawn : s.drawn.fcp = s.fcp := rfl

@[simp] theorem cfg_drawn : s.drawn.cfg = s.cfg := rfl

@[simp] theorem rtext_drawn : s.drawn.rtext = s.rtext := rfl

@[simp] theorem stream_drawn : s.drawn.stream = s.stream := rfl

@[simp] theorem draws_drawn : s.drawn.draws = s.draws + 1 := rfl

@[simp] theorem schedule_drawn : s.drawn.schedule = s.schedule := rfl

@[simp] theorem limbs_drawn : s.drawn.limbs = s.limbs := rfl

@[simp] theorem reg_drawn (q : Reg) : s.drawn.reg q = s.reg q := rfl

@[simp] theorem run_drawn : s.drawn.run = s.run := rfl

@[simp] theorem cause_drawn : s.drawn.cause = s.cause := rfl

@[simp] theorem flags_drawn : s.drawn.flags = s.flags := rfl

/-! ### hostReset -/

@[simp] theorem regs_hostReset : s.hostReset.regs = Vector.replicate 16 (List.replicate s.cfg.toNat 0#8) := rfl

@[simp] theorem cp_hostReset : s.hostReset.cp = 0 := rfl

@[simp] theorem status_hostReset : s.hostReset.status = 0 := rfl

@[simp] theorem fcmd_hostReset : s.hostReset.fcmd = 0 := rfl

@[simp] theorem fcp_hostReset : s.hostReset.fcp = 0 := rfl

@[simp] theorem cfg_hostReset : s.hostReset.cfg = s.cfg := rfl

@[simp] theorem rtext_hostReset : s.hostReset.rtext = [] := rfl

@[simp] theorem stream_hostReset : s.hostReset.stream = [] := rfl

@[simp] theorem draws_hostReset : s.hostReset.draws = s.draws := rfl

@[simp] theorem schedule_hostReset : s.hostReset.schedule = s.schedule := rfl

@[simp] theorem limbs_hostReset : s.hostReset.limbs = s.limbs := rfl

@[simp] theorem reg_hostReset (q : Reg) : s.hostReset.reg q = zeros s.limbs := reg_resetWith s.cfg q

end Sys2Proof.Machine
end

