-- ==== Sys2Proof/Laws/Flags.lean ====
section
/-! SUPPORT. What each writer of STATUS leaves in each field. -/

namespace Sys2Proof.Machine

section pack
variable (e l g : Bool) (c : BitVec 4) (r : BitVec 2)

@[simp] theorem eq_pack : Status.eq (Status.pack e l g c r) = e := by revert e l g c r; decide

@[simp] theorem lt_pack : Status.lt (Status.pack e l g c r) = l := by revert e l g c r; decide

@[simp] theorem gt_pack : Status.gt (Status.pack e l g c r) = g := by revert e l g c r; decide

@[simp] theorem cause_pack : Status.cause (Status.pack e l g c r) = c := by revert e l g c r; decide

@[simp] theorem run_pack : Status.run (Status.pack e l g c r) = r := by revert e l g c r; decide

theorem reserved_pack :
    (Status.pack e l g c r).getLsbD 3 = false ∧ (Status.pack e l g c r).extractLsb' 10 22 = 0#22 := by
  revert e l g c r; decide

end pack

@[simp] theorem run_code_eq {r q : RunState} : r.code = q.code ↔ r = q := by cases r <;> cases q <;> decide

@[simp] theorem cause_code_eq {c d : Cause} : c.code = d.code ↔ c = d := by cases c <;> cases d <;> decide

variable (w : Word) (s : State)

@[simp] theorem eq_enter (run : RunState) (c : Cause) : Status.eq (Status.enter w run c) = Status.eq w := by
  simp [Status.enter]

@[simp] theorem lt_enter (run : RunState) (c : Cause) : Status.lt (Status.enter w run c) = Status.lt w := by
  simp [Status.enter]

@[simp] theorem gt_enter (run : RunState) (c : Cause) : Status.gt (Status.enter w run c) = Status.gt w := by
  simp [Status.enter]

@[simp] theorem cause_enter_status (run : RunState) (c : Cause) : Status.cause (Status.enter w run c) = c.code := by
  simp [Status.enter]

@[simp] theorem run_enter_status (run : RunState) (c : Cause) : Status.run (Status.enter w run c) = run.code := by
  simp [Status.enter]

@[simp] theorem cause_setFlags_status (o : Ordering) : Status.cause (Status.setFlags w o) = Status.cause w := by
  simp [Status.setFlags]

@[simp] theorem run_setFlags_status (o : Ordering) : Status.run (Status.setFlags w o) = Status.run w := by
  simp [Status.setFlags]

@[simp] theorem eq_setFlags (o : Ordering) : Status.eq (Status.setFlags w o) = (o == .eq) := by
  simp [Status.setFlags]

@[simp] theorem lt_setFlags (o : Ordering) : Status.lt (Status.setFlags w o) = (o == .lt) := by
  simp [Status.setFlags]

@[simp] theorem gt_setFlags (o : Ordering) : Status.gt (Status.setFlags w o) = (o == .gt) := by
  simp [Status.setFlags]

@[simp] theorem eq_resume : Status.eq (Status.resume w) = Status.eq w := by simp [Status.resume]

@[simp] theorem lt_resume : Status.lt (Status.resume w) = Status.lt w := by simp [Status.resume]

@[simp] theorem gt_resume : Status.gt (Status.resume w) = Status.gt w := by simp [Status.resume]

@[simp] theorem cause_resume_status : Status.cause (Status.resume w) = Status.cause w := by simp [Status.resume]

@[simp] theorem run_resume_status : Status.run (Status.resume w) = RunState.ready.code := by simp [Status.resume]

@[simp] theorem run_enter (run : RunState) (c : Cause) (cw : Word) : (s.enter run c cw).run = run.code := by
  simp [State.run]

@[simp] theorem cause_enter (run : RunState) (c : Cause) (cw : Word) : (s.enter run c cw).cause = c.code := by
  simp [State.cause]

@[simp] theorem flags_enter (run : RunState) (c : Cause) (cw : Word) : (s.enter run c cw).flags = s.flags := by
  simp [State.flags]

@[simp] theorem run_setFlags (o : Ordering) : (s.setFlags o).run = s.run := by simp [State.run]

@[simp] theorem cause_setFlags (o : Ordering) : (s.setFlags o).cause = s.cause := by simp [State.cause]

theorem flags_setFlags (o : Ordering) : (s.setFlags o).flags = (o == .eq, o == .lt, o == .gt) := by
  simp [State.flags]

end Sys2Proof.Machine
end

