-- ==== Sys2Proof/Laws/Memory.lean ====
section
/-! SUPPORT. The command stream keeps its canonical form (spec/20_memory.md R28). -/

namespace Sys2Proof.Machine

theorem wf_iff (m : Memory) : Memory.wf m = true ↔ m.length ≤ 2 ^ 32 - 1 := by
  simp only [Memory.wf, decide_eq_true_eq, show maxStreamWords = 2 ^ 32 - 1 from rfl]

/-- The word at CP and the words after it are words of the stream. -/
theorem window_cons {s : State} {w : Word} {rest : List Word} (h : s.window = w :: rest) :
    s.stream[s.cp.toNat]? = some w ∧ s.cp.toNat + rest.length + 1 = s.stream.length := by
  unfold State.window at h
  have hget := congrArg (fun l => l[0]?) h
  have hlen := congrArg List.length h
  have hlt : s.cp.toNat < s.stream.length := by
    by_contra hc
    rw [List.drop_eq_nil_of_le (by omega)] at h
    cases h
  simp only [List.length_drop, List.length_cons] at hlen
  exact ⟨by simpa using hget, by omega⟩

theorem reset_stream_wf (n : Word) : Memory.wf (State.resetWith n).stream = true := rfl

theorem hostReset_stream_wf (s : State) : Memory.wf s.hostReset.stream = true := rfl

theorem hostSupply_stream_wf {ws : List Word} {s t : State} (h : hostSupply ws s = .next t) :
    Memory.wf t.stream = true := by
  unfold hostSupply at h
  split at h
  · next hw => cases h; exact hw
  · cases h

theorem placeWords_length (m : Memory) (k : Nat) (ws : List Word) :
    (placeWords m k ws).length = max m.length (k + ws.length) := by
  simp [placeWords]; omega

/-- Placing an instruction's words keeps the stream in range when they end within it. -/
theorem placeWords_wf {m : Memory} {k : Nat} {ws : List Word} (hm : Memory.wf m = true)
    (hk : k + ws.length ≤ maxStreamWords) : Memory.wf (placeWords m k ws) = true := by
  simp only [Memory.wf, decide_eq_true_eq, placeWords_length] at *
  omega

end Sys2Proof.Machine
end

