-- ==== Sys2Proof/Laws/Value.lean ====
section
/-! SUPPORT. Values and their numbers: val is a bijection between the n-limb values and the numbers below 256^n
(spec/00_scope.md R5). -/

namespace Sys2Proof.Machine

@[simp] theorem val_nil : val [] = 0 := rfl

theorem val_cons (l : Limb) (ls : Value) : val (l :: ls) = l.toNat + 256 * val ls := rfl

theorem val_lt (v : Value) : val v < 256 ^ v.length := by
  induction v with
  | nil => simp
  | cons l ls ih =>
    have := l.isLt
    rw [val_cons, List.length_cons, Nat.pow_succ]
    omega

@[simp] theorem length_ofNat (n x : Nat) : (ofNat n x).length = n := by
  induction n generalizing x with
  | zero => rfl
  | succ n ih => simp [ofNat, ih]

theorem val_ofNat (n x : Nat) : val (ofNat n x) = x % 256 ^ n := by
  induction n generalizing x with
  | zero => simp [ofNat, Nat.mod_one]
  | succ n ih =>
    rw [ofNat, val_cons, ih, Nat.pow_succ, Nat.mul_comm (256 ^ n) 256, Nat.mod_mul]
    simp

theorem val_inj : {v w : Value} → v.length = w.length → val v = val w → v = w
  | [], [], _, _ => rfl
  | l :: ls, m :: ms, hl, hv => by
    have h1 := l.isLt
    have h2 := m.isLt
    rw [val_cons, val_cons] at hv
    have h3 : l = m := BitVec.eq_of_toNat_eq (by omega)
    have h4 : ls = ms := val_inj (by simpa using hl) (by omega)
    rw [h3, h4]

theorem ofNat_val (v : Value) : ofNat v.length (val v) = v :=
  val_inj (by simp) (by rw [val_ofNat, Nat.mod_eq_of_lt (val_lt v)])

@[simp] theorem length_zeros (n : Nat) : (zeros n).length = n := by simp [zeros]

@[simp] theorem val_zeros (n : Nat) : val (zeros n) = 0 := by
  induction n with
  | zero => rfl
  | succ n ih => simpa [zeros, List.replicate_succ, val_cons] using ih

theorem val_append (v w : Value) : val (v ++ w) = val v + 256 ^ v.length * val w := by
  induction v with
  | nil => simp
  | cons l ls ih => simp only [List.cons_append, val_cons, ih, List.length_cons, Nat.pow_succ]; ring

theorem val_padTo (n : Nat) (v : Value) : val (padTo n v) = val v := by simp [padTo, val_append]

theorem pow_width (n : Nat) : 2 ^ (8 * n) = 256 ^ n := by rw [Nat.pow_mul]

@[simp] theorem length_widen (n : Nat) {S : Nat} (lit : BitVec S) : (widen n lit).length = n := by simp [widen]

@[simp] theorem length_drawValue (s : State) : s.drawValue.length = s.limbs := by simp [State.drawValue]

@[simp] theorem length_increment (v : Value) : (increment v).length = v.length := by
  induction v with
  | nil => rfl
  | cons l ls ih => simp only [increment]; split <;> simp [ih]

@[simp] theorem length_decrement (v : Value) : (decrement v).length = v.length := by
  induction v with
  | nil => rfl
  | cons l ls ih => simp only [decrement]; split <;> simp [ih]

@[simp] theorem length_complement (v : Value) : (complement v).length = v.length := by simp [complement]

theorem length_rippleAdd : (a b : Value) → (c : Nat) → a.length = b.length → (rippleAdd a b c).length = a.length
  | [], _, _, _ => by simp [rippleAdd]
  | x :: as, y :: bs, c, h => by
    have ih := length_rippleAdd as bs ((c + x.toNat + y.toNat) / 256) (by simpa using h)
    simpa [rippleAdd] using ih

theorem length_rippleSub : (a b : Value) → (c : Nat) → a.length = b.length → (rippleSub a b c).length = a.length
  | [], _, _, _ => by simp [rippleSub]
  | x :: as, y :: bs, c, h => by
    have ih := fun c' => length_rippleSub as bs c' (by simpa using h)
    simp only [rippleSub]
    split <;> simp [ih]

@[simp] theorem length_mulRow (x : Nat) : (p b : Value) → (c : Nat) → (mulRow x p b c).length = p.length
  | [], _, _ => by simp [mulRow]
  | _ :: _, [], _ => by simp [mulRow]
  | p :: ps, b :: bs, c => by
    have ih := length_mulRow x ps bs ((c + p.toNat + x * b.toNat) / 256)
    simpa [mulRow] using ih

@[simp] theorem length_mulRows : (a b p : Value) → (mulRows a b p).length = p.length
  | [], _, _ => by simp [mulRows]
  | x :: as, b, p => by
    have hrow := length_mulRow x.toNat p b 0
    simp only [mulRows]
    split
    · next h => rw [h] at hrow; simpa using hrow
    · next q qs h => rw [h] at hrow; simp [length_mulRows as b qs, ← hrow]

@[simp] theorem length_schoolbook (a b : Value) : (schoolbook a b).length = a.length := by simp [schoolbook]

@[simp] theorem length_divMod (a b : Value) :
    (divMod a b).1.length = a.length ∧ (divMod a b).2.length = a.length := by simp [divMod]

end Sys2Proof.Machine
end

