-- ==== Sys2Proof/Laws/Ops.lean ====
section
/-! SUPPORT. Everything each shared operation can do, said once. -/

namespace Sys2Proof.Machine

theorem finish_eq (i : Instr) (s : State) : finish i s = .next (s.advance i.opcode.words) := rfl

theorem stoppedWith_enter (run : RunState) (c : Cause) (w : Word) (s : State) :
    stoppedWith run c w s (s.enter run c w) := by
  simp [stoppedWith]

theorem raiseTrap_spec (c : Cause) (i : Instr) (s : State) :
    ∃ t, raiseTrap c i s = .next t ∧ stoppedWith .trapped c i.commandWord s t :=
  ⟨_, rfl, stoppedWith_enter _ _ _ _⟩

theorem raiseHalt_spec (c : Cause) (i : Instr) (s : State) :
    ∃ t, raiseHalt c i s = .next t ∧ stoppedWith .halted c i.commandWord s t :=
  ⟨_, rfl, stoppedWith_enter _ _ _ _⟩

theorem finish_setReg_spec (i : Instr) (d : Reg) (v : Value) (s : State) :
    ∃ t, finish i (s.setReg d v) = .next t ∧ t.reg d = v ∧ onlyRegs [d] s t ∧ completedBy i.opcode.words s t := by
  refine ⟨_, rfl, by simp, ⟨fun r hr => ?_, rfl, rfl, rfl, rfl, rfl, rfl, rfl, rfl⟩, rfl⟩
  exact reg_setReg_of_ne s (by simpa using hr) v

theorem widenU_cases (i : Instr) (d : Reg) {S : Nat} (lit : BitVec S) (s : State) :
    (8 * s.limbs < S ∧ widenU i d lit s = raiseHalt .contractWidth i s) ∨
      (S ≤ 8 * s.limbs ∧ widenU i d lit s = finish i (s.setReg d (widen s.limbs lit))) := by
  by_cases h : 8 * s.limbs < S
  · exact .inl ⟨h, by simp [widenU, h]⟩
  · exact .inr ⟨by omega, by simp [widenU, h]⟩

theorem widenS_cases (i : Instr) (d : Reg) {S : Nat} (lit : BitVec S) (s : State) :
    (8 * s.limbs < S ∧ widenS i d lit s = raiseHalt .contractWidth i s) ∨
      (S ≤ 8 * s.limbs ∧ negative lit = true ∧ widenS i d lit s = raiseHalt .contractNegative i s) ∨
      (S ≤ 8 * s.limbs ∧ negative lit = false ∧ widenS i d lit s = finish i (s.setReg d (widen s.limbs lit))) := by
  by_cases h : 8 * s.limbs < S
  · exact .inl ⟨h, by simp [widenS, h]⟩
  · cases hn : negative lit
    · exact .inr (.inr ⟨by omega, rfl, by simp [widenS, h, hn]⟩)
    · exact .inr (.inl ⟨by omega, rfl, by simp [widenS, h, hn]⟩)

/-- What fetch can answer, with the state it answers it in. -/
theorem fetch_instr {s : State} {i : Instr} (h : fetch s = .instr i) :
    s.run = RunState.ready.code ∧ ∃ w rest, s.window = w :: rest ∧ decode w rest = .instr i := by
  unfold fetch at h
  split at h
  · cases h
  · split at h
    · cases h
    · split at h
      · cases h
      · split at h
        · cases h
        · next hr =>
          refine ⟨by simpa using hr, ?_⟩
          split at h
          · cases h
          · next w rest hw =>
            refine ⟨w, rest, hw, ?_⟩
            split at h
            · cases h
            · cases h
            · next j hj => cases h; exact hj

theorem fetch_illegal {s : State} {w : Word} (h : fetch s = .illegal w) :
    s.run = RunState.ready.code ∧ ∃ rest why, s.window = w :: rest ∧ decode w rest = .illegal why := by
  unfold fetch at h
  split at h
  · cases h
  · split at h
    · cases h
    · split at h
      · cases h
      · split at h
        · cases h
        · next hr =>
          refine ⟨by simpa using hr, ?_⟩
          split at h
          · cases h
          · next v rest hw =>
            split at h
            · cases h
            · next why hj => cases h; exact ⟨rest, why, hw, hj⟩
            · cases h

/-- Every way a step of the block answers a next state. -/
theorem blockStep_next {s t : State} (h : blockStep s = .next t) :
    (fetch s = .idle ∧ t = s) ∨
      (∃ w, fetch s = .illegal w ∧ t = s.enter .halted .illegalCommand w) ∨
      (∃ i, fetch s = .instr i ∧ exec i s = .next t) := by
  unfold blockStep at h
  split at h
  · next hf => cases h; exact .inl ⟨hf, rfl⟩
  · next w hf => cases h; exact .inr (.inl ⟨w, hf, rfl⟩)
  · next i hf => exact .inr (.inr ⟨i, hf, h⟩)
  · cases h
  · cases h

/-- Every way a host action answers a next state. -/
theorem hostStep_next {a : HostAction} {s t : State} (h : hostStep a s = .next t) :
    (∃ ws, a = .supply ws ∧ Memory.wf (s.stream ++ ws) = true ∧ t = { s with stream := s.stream ++ ws }) ∨
      (∃ r, a = .read r ∧ t = s) ∨ (a = .resume ∧ t = s.resume) ∨ (a = .reset ∧ t = s.hostReset) := by
  cases a with
  | supply ws =>
    simp only [hostStep, hostSupply] at h
    split at h
    · next hw => cases h; exact .inl ⟨ws, rfl, hw, rfl⟩
    · cases h
  | read r => cases h; exact .inr (.inl ⟨r, rfl, rfl⟩)
  | resume => cases h; exact .inr (.inr (.inl ⟨rfl, rfl⟩))
  | reset => cases h; exact .inr (.inr (.inr ⟨rfl, rfl⟩))

/-- Every way a step answers a next state: the block's turn, or the host's. -/
theorem step_next {s t : State} (h : step s = .next t) :
    (∃ rest, (s.schedule = .block :: rest ∨ s.schedule = [] ∧ rest = []) ∧
        blockStep { s with schedule := rest } = .next t) ∨
      (∃ a rest, s.schedule = .host a :: rest ∧ hostStep a { s with schedule := rest } = .next t) := by
  unfold step at h
  split at h
  · next hs =>
    refine .inl ⟨[], .inr ⟨hs, rfl⟩, ?_⟩
    rw [← hs]; exact h
  · next rest hs => exact .inl ⟨rest, .inl hs, h⟩
  · next a rest hs => exact .inr ⟨a, rest, hs, h⟩

end Sys2Proof.Machine
end

