-- ==== Sys2Proof/Laws/PerInstr.lean ====
section
/-! SUPPORT. The family FieldLayout: what R41 and R43 say of every command's words, one lemma per constructor. -/

namespace Sys2Proof.Laws.FieldLayout

/-- The command word carries the command's OP, RSV is 0, the fields its opcode does not use are 0, and the words are as
many as its opcode says (R41, R43, R46). -/
def Statement (i : Instr) : Prop :=
  opField i.commandWord = i.opcode.code ∧ rsvField i.commandWord = 0 ∧
    i.opcode.unusedNonzero i.commandWord = false ∧ (encode i).length = i.opcode.words

theorem zero (d : Reg) : Statement (.zero d) := by
  simp [Statement, Instr.commandWord, Instr.opcode, Opcode.unusedNonzero, Opcode.uses, encode, Instr.literals, Opcode.words]

theorem mov (d a : Reg) : Statement (.mov d a) := by
  simp [Statement, Instr.commandWord, Instr.opcode, Opcode.unusedNonzero, Opcode.uses, encode, Instr.literals, Opcode.words]

theorem xfer (d a : Reg) : Statement (.xfer d a) := by
  simp [Statement, Instr.commandWord, Instr.opcode, Opcode.unusedNonzero, Opcode.uses, encode, Instr.literals, Opcode.words]

theorem ldu8 (d : Reg) (lit : BitVec 8) : Statement (.ldu8 d lit) := by
  simp [Statement, Instr.commandWord, Instr.opcode, Opcode.unusedNonzero, Opcode.uses, encode, Instr.literals, literalWords,
    Opcode.words]

theorem ldu16 (d : Reg) (lit : BitVec 16) : Statement (.ldu16 d lit) := by
  simp [Statement, Instr.commandWord, Instr.opcode, Opcode.unusedNonzero, Opcode.uses, encode, Instr.literals, literalWords,
    Opcode.words]

theorem ldu32 (d : Reg) (lit : BitVec 32) : Statement (.ldu32 d lit) := by
  simp [Statement, Instr.commandWord, Instr.opcode, Opcode.unusedNonzero, Opcode.uses, encode, Instr.literals, literalWords,
    Opcode.words]

theorem ldu64 (d : Reg) (lit : BitVec 64) : Statement (.ldu64 d lit) := by
  simp [Statement, Instr.commandWord, Instr.opcode, Opcode.unusedNonzero, Opcode.uses, encode, Instr.literals, literalWords,
    Opcode.words]

theorem lds8 (d : Reg) (lit : BitVec 8) : Statement (.lds8 d lit) := by
  simp [Statement, Instr.commandWord, Instr.opcode, Opcode.unusedNonzero, Opcode.uses, encode, Instr.literals, literalWords,
    Opcode.words]

theorem lds16 (d : Reg) (lit : BitVec 16) : Statement (.lds16 d lit) := by
  simp [Statement, Instr.commandWord, Instr.opcode, Opcode.unusedNonzero, Opcode.uses, encode, Instr.literals, literalWords,
    Opcode.words]

theorem lds32 (d : Reg) (lit : BitVec 32) : Statement (.lds32 d lit) := by
  simp [Statement, Instr.commandWord, Instr.opcode, Opcode.unusedNonzero, Opcode.uses, encode, Instr.literals, literalWords,
    Opcode.words]

theorem lds64 (d : Reg) (lit : BitVec 64) : Statement (.lds64 d lit) := by
  simp [Statement, Instr.commandWord, Instr.opcode, Opcode.unusedNonzero, Opcode.uses, encode, Instr.literals, literalWords,
    Opcode.words]

theorem add (d a b : Reg) : Statement (.add d a b) := by
  simp [Statement, Instr.commandWord, Instr.opcode, Opcode.unusedNonzero, Opcode.uses, encode, Instr.literals, Opcode.words]

theorem inc (d a : Reg) : Statement (.inc d a) := by
  simp [Statement, Instr.commandWord, Instr.opcode, Opcode.unusedNonzero, Opcode.uses, encode, Instr.literals, Opcode.words]

theorem sub (d a b : Reg) : Statement (.sub d a b) := by
  simp [Statement, Instr.commandWord, Instr.opcode, Opcode.unusedNonzero, Opcode.uses, encode, Instr.literals, Opcode.words]

theorem dec (d a : Reg) : Statement (.dec d a) := by
  simp [Statement, Instr.commandWord, Instr.opcode, Opcode.unusedNonzero, Opcode.uses, encode, Instr.literals, Opcode.words]

theorem neg (d a : Reg) : Statement (.neg d a) := by
  simp [Statement, Instr.commandWord, Instr.opcode, Opcode.unusedNonzero, Opcode.uses, encode, Instr.literals, Opcode.words]

theorem mul (d a b : Reg) : Statement (.mul d a b) := by
  simp [Statement, Instr.commandWord, Instr.opcode, Opcode.unusedNonzero, Opcode.uses, encode, Instr.literals, Opcode.words]

theorem divu (d a b : Reg) : Statement (.divu d a b) := by
  simp [Statement, Instr.commandWord, Instr.opcode, Opcode.unusedNonzero, Opcode.uses, encode, Instr.literals, Opcode.words]

theorem remu (d a b : Reg) : Statement (.remu d a b) := by
  simp [Statement, Instr.commandWord, Instr.opcode, Opcode.unusedNonzero, Opcode.uses, encode, Instr.literals, Opcode.words]

theorem divrem (d c a b : Reg) : Statement (.divrem d c a b) := by
  simp [Statement, Instr.commandWord, Instr.opcode, Opcode.unusedNonzero, Opcode.uses, encode, Instr.literals, Opcode.words]

theorem cmp (a b : Reg) : Statement (.cmp a b) := by
  simp [Statement, Instr.commandWord, Instr.opcode, Opcode.unusedNonzero, Opcode.uses, encode, Instr.literals, Opcode.words]

theorem render (a : Reg) : Statement (.render a) := by
  simp [Statement, Instr.commandWord, Instr.opcode, Opcode.unusedNonzero, Opcode.uses, encode, Instr.literals, Opcode.words]

end Sys2Proof.Laws.FieldLayout
end

