-- ==== Sys2Proof/Tests/Slice0.lean ====
section
/-! SUPPORT. Tests of the model against the spec's own vectors (spec/95_test_vectors.md) and encodings
(spec/30_encoding.md), and a witness for each statement that has hypotheses. -/

namespace Sys2Proof.Tests

open Sys2Proof Sys2Proof.Machine

/-! ### Well-formedness: the one check -/

theorem test_wellFormed_refuses_divrem_same_destination : (Instr.divrem 3 3 1 2).wellFormed = false := by decide

theorem test_wellFormed_accepts_divrem : (Instr.divrem 3 4 1 2).wellFormed = true := by decide

/-! ### Decoding: one word written out from the spec's encoding for every command -/

theorem test_decode_construction :
    decode 0x00000301 [] = .instr (.zero 3) ∧ decode 0x00002502 [] = .instr (.mov 5 2) ∧
    decode 0x00005603 [] = .instr (.xfer 6 5) := by decide

theorem test_decode_unsigned_literals :
    decode 0x00000210 [7, 0] = .instr (.ldu8 2 7) ∧ decode 0x00000111 [0x12C, 0] = .instr (.ldu16 1 300) ∧
    decode 0x00000112 [0xDEADBEEF, 0] = .instr (.ldu32 1 0xDEADBEEF) ∧
    decode 0x00000113 [1, 0x80000000] = .instr (.ldu64 1 0x8000000000000001) := by decide

theorem test_decode_signed_literals :
    decode 0x00000114 [0x7F, 0] = .instr (.lds8 1 127) ∧ decode 0x00000115 [0x12C, 0] = .instr (.lds16 1 300) ∧
    decode 0x00000216 [0xFFFFFFFB, 0] = .instr (.lds32 2 0xFFFFFFFB) ∧
    decode 0x00000117 [0xFFFFFFFF, 0x7FFFFFFF] = .instr (.lds64 1 0x7FFFFFFFFFFFFFFF) := by decide

theorem test_decode_additive :
    decode 0x00032120 [] = .instr (.add 1 2 3) ∧ decode 0x00001221 [] = .instr (.inc 2 1) ∧
    decode 0x00012428 [] = .instr (.sub 4 2 1) ∧ decode 0x00001229 [] = .instr (.dec 2 1) ∧
    decode 0x0000452A [] = .instr (.neg 5 4) := by decide

theorem test_decode_multiply_divide :
    decode 0x00023530 [] = .instr (.mul 5 3 2) ∧ decode 0x00021338 [] = .instr (.divu 3 1 2) ∧
    decode 0x00021439 [] = .instr (.remu 4 1 2) ∧ decode 0x0042133A [] = .instr (.divrem 3 4 1 2) := by decide

theorem test_decode_compare_render :
    decode 0x00015040 [] = .instr (.cmp 5 1) ∧ decode 0x00003050 [] = .instr (.render 3) := by decide

/-- Vectors ENC-1 to ENC-12, CON-14, CON-18 and DIV-20. -/
theorem test_decode_illegal :
    decode 0x00000000 [] = .illegal .unknownOpcode ∧ decode 0xFFFFFFFF [] = .illegal .unknownOpcode ∧
    decode 0x00000004 [] = .illegal .unknownOpcode ∧ decode 0x00000118 [0, 0] = .illegal .unknownOpcode ∧
    decode 0x01032120 [] = .illegal .reservedBits ∧ decode 0x00132120 [] = .illegal .unusedField ∧
    decode 0x00001101 [] = .illegal .unusedField ∧ decode 0x00015140 [] = .illegal .unusedField ∧
    decode 0x00010050 [] = .illegal .unusedField ∧ decode 0x00001110 [5, 0] = .illegal .unusedField ∧
    decode 0x00000111 [0x10000, 0] = .illegal .wideLiteral ∧ decode 0x00000112 [0, 1] = .illegal .wideLiteral ∧
    decode 0x00000110 [0x100, 0] = .illegal .wideLiteral ∧
    decode 0x00000114 [0xFFFFFFFF, 0xFFFFFFFF] = .illegal .wideLiteral ∧
    decode 0x0033133A [] = .illegal .sameDestination := by decide

/-- EXC-5 and EXC-6: the field check comes before the literal is needed, and a missing literal word waits. -/
theorem test_decode_wait :
    decode 0x00001111 [] = .illegal .unusedField ∧ decode 0x00000110 [5] = .wait ∧
    decode 0x00000113 [] = .wait := by decide

/-- The table's match and mask (R44) are those of the decoder's codes and field uses. -/
theorem test_rows_agree_with_opcodes :
    Opcode.all.map (fun o => (o.code.setWidth 32,
      0xFF0000FF#32 ||| (if o.uses.d then 0 else 0xF00) ||| (if o.uses.a then 0 else 0xF000) |||
        (if o.uses.b then 0 else 0xF0000) ||| (if o.uses.c then 0 else 0xF00000))) = opcodeRows := by decide

/-- No word matches two rows: the OP values differ. -/
theorem test_opcodes_distinct : (Opcode.all.map Opcode.code).Nodup := by decide

theorem test_decodeTableWord :
    decodeTableWord 32 0x00032120 = some (.add 1 2 3) ∧ decodeTableWord 32 0x00000113 = some (.ldu64 1 0) ∧
    decodeTableWord 96 0x0000012C00000111 = some (.ldu16 1 300) ∧ decodeTableWord 32 0 = none := by decide

/-! ### Steps -/

/-- An instance of n limbs after reset, with registers set and words supplied. -/
def start (n : Nat) (rs : List (Reg × Nat)) (ws : List Word) : State :=
  rs.foldl (fun s r => s.setReg r.1 (ofNat n r.2)) { State.resetWith (BitVec.ofNat 32 n) with stream := ws }

/-- What f sees in the state after one step. -/
def seen {α : Type} (s : State) (f : State → α) : Option α :=
  match step s with
  | .next t => some (f t)
  | .fault _ => none
  | .refused _ => none

/-- STATUS, CP, FCMD and FCP as numbers. -/
def control (t : State) : List Nat := [t.status.toNat, t.cp.toNat, t.fcmd.toNat, t.fcp.toNat]

/-- CON-1. -/
theorem test_zero :
    seen (start 8 [(3, 0x123456789abcdef)] [0x00000301]) (fun t => (val (t.reg 3), control t)) =
      some (0, [0, 1, 0, 0]) := by decide

/-- CON-3. -/
theorem test_mov :
    seen (start 8 [(2, 7)] [0x00002502]) (fun t => (val (t.reg 5), val (t.reg 2), t.cp)) = some (7, 7, 1) := by decide

/-- CON-5: v5 is a draw, so only v6 is looked at. -/
theorem test_xfer :
    seen (start 8 [(5, 2)] [0x00005603]) (fun t => (val (t.reg 6), t.draws, t.cp)) = some (2, 1, 1) := by decide

/-- CON-6: a self-transfer leaves a draw of N limbs. -/
theorem test_xfer_self :
    seen (start 8 [(5, 2)] [0x00005503]) (fun t => ((t.reg 5).length, t.draws, t.cp)) = some (8, 1, 1) := by decide

/-- CON-7. -/
theorem test_ldu8 :
    seen (start 1 [] [0x00000210, 0xFF, 0]) (fun t => (val (t.reg 2), t.cp)) = some (0xff, 3) := by decide

/-- CON-8: the contract is on the source's width, not on its value. -/
theorem test_ldu16_width :
    seen (start 1 [(1, 9)] [0x00000111, 5, 0]) (fun t => (val (t.reg 1), control t)) =
      some (9, [0x220, 0, 0x111, 0]) := by decide

/-- CON-9. -/
theorem test_ldu16 :
    seen (start 2 [] [0x00000111, 0xFFFF, 0]) (fun t => (val (t.reg 1), t.cp)) = some (0xffff, 3) := by decide

/-- CON-10. -/
theorem test_ldu32 :
    seen (start 8 [] [0x00000112, 0xDEADBEEF, 0]) (fun t => (val (t.reg 1), t.cp)) =
      some (0xdeadbeef, 3) := by decide

/-- CON-12. -/
theorem test_ldu64 :
    seen (start 16 [] [0x00000113, 0xFFFFFFFF, 0xFFFFFFFF]) (fun t => (val (t.reg 1), t.cp)) =
      some (0xffffffffffffffff, 3) := by decide

/-- CON-15, CON-16. -/
theorem test_lds8 :
    seen (start 8 [] [0x00000114, 0x7F, 0]) (fun t => (val (t.reg 1), t.cp)) = some (0x7f, 3) ∧
    seen (start 8 [(1, 3)] [0x00000114, 0x80, 0]) (fun t => (val (t.reg 1), control t)) =
      some (3, [0x230, 0, 0x114, 0]) := by decide

/-- CON-20: width is checked before sign. -/
theorem test_lds16_width_before_sign :
    seen (start 1 [] [0x00000115, 0x8000, 0]) control = some [0x220, 0, 0x115, 0] := by decide

/-- CON-19. -/
theorem test_lds16 :
    seen (start 8 [] [0x00000115, 0x7FFF, 0]) (fun t => (val (t.reg 1), t.cp)) = some (0x7fff, 3) := by decide

/-- CON-21, CON-22. -/
theorem test_lds32 :
    seen (start 8 [] [0x00000216, 0xFFFFFFFB, 0]) control = some [0x230, 0, 0x216, 0] ∧
    seen (start 8 [] [0x00000216, 0x7FFFFFFF, 0]) (fun t => (val (t.reg 2), t.cp)) =
      some (0x7fffffff, 3) := by decide

/-- CON-23, CON-24. -/
theorem test_lds64 :
    seen (start 8 [] [0x00000117, 0xFFFFFFFF, 0x7FFFFFFF]) (fun t => (val (t.reg 1), t.cp)) =
      some (0x7fffffffffffffff, 3) ∧
    seen (start 8 [] [0x00000117, 0, 0x80000000]) control = some [0x230, 0, 0x117, 0] := by decide

/-- ADD-2, ADD-5: the carry is dropped; all three fields alias. -/
theorem test_add :
    seen (start 2 [(1, 0xffff), (2, 1)] [0x00021320]) (fun t => (val (t.reg 3), control t)) =
      some (0, [0, 1, 0, 0]) ∧
    seen (start 2 [(1, 0x1234)] [0x00011120]) (fun t => val (t.reg 1)) = some 0x2468 := by decide

/-- INC-1, INC-5. -/
theorem test_inc :
    seen (start 2 [(3, 0xffff)] [0x00003321]) (fun t => val (t.reg 3)) = some 0 ∧
    seen (start 4 [(1, 0xffffff)] [0x00001121]) (fun t => val (t.reg 1)) = some 0x1000000 := by decide

/-- SUB-2, SUB-6. -/
theorem test_sub :
    seen (start 8 [(1, 5), (2, 3)] [0x00012428]) (fun t => val (t.reg 4)) = some 0xfffffffffffffffe ∧
    seen (start 4 [(1, 0x1000000), (2, 1)] [0x00021128]) (fun t => val (t.reg 1)) = some 0xffffff := by decide

/-- DEC-1, DEC-2. -/
theorem test_dec :
    seen (start 2 [(1, 0x100)] [0x00001129]) (fun t => val (t.reg 1)) = some 0xff ∧
    seen (start 2 [] [0x00001229]) (fun t => val (t.reg 2)) = some 0xffff := by decide

/-- NEG-2, NEG-6. -/
theorem test_neg :
    seen (start 2 [] [0x0000112A]) (fun t => val (t.reg 1)) = some 0 ∧
    seen (start 4 [(1, 0x10000)] [0x0000122A]) (fun t => val (t.reg 2)) = some 0xffff0000 := by decide

/-- MUL-8, MUL-4. -/
theorem test_mul :
    seen (start 4 [(1, 0x12345678), (2, 0x9abcdef0)] [0x00021330]) (fun t => val (t.reg 3)) = some 0x242d2080 ∧
    seen (start 2 [(1, 0xffff)] [0x00011130]) (fun t => val (t.reg 1)) = some 1 := by decide

/-- DIV-1, DIV-17: the dividend of a trapped compound divide stays. -/
theorem test_divu :
    seen (start 8 [(1, 300), (2, 7)] [0x00021338]) (fun t => (val (t.reg 3), t.cp)) = some (42, 1) ∧
    seen (start 8 [(1, 300)] [0x00021138]) (fun t => (val (t.reg 1), control t)) =
      some (300, [0x110, 0, 0x21138, 0]) := by decide

/-- DIV-2, DIV-18. -/
theorem test_remu :
    seen (start 8 [(1, 300), (2, 7)] [0x00021439]) (fun t => (val (t.reg 4), t.cp)) = some (6, 1) ∧
    seen (start 8 [(1, 300)] [0x00021439]) (fun t => (val (t.reg 4), control t)) =
      some (0, [0x110, 0, 0x21439, 0]) := by decide

/-- DIV-9, DIV-16: both destinations alias the sources. -/
theorem test_divrem :
    seen (start 4 [(1, 0xcc67bd09), (2, 0x16b637)] [0x0042133A]) (fun t => (val (t.reg 3), val (t.reg 4))) =
      some (0x8ff, 0x168440) ∧
    seen (start 8 [(1, 300), (2, 7)] [0x0022113A]) (fun t => (val (t.reg 1), val (t.reg 2))) = some (42, 6) := by
  decide

/-- DIV-19: 0 / 0 traps and neither destination is written. -/
theorem test_divrem_trap :
    seen (start 8 [(3, 9), (4, 9)] [0x0042133A]) (fun t => (val (t.reg 3), val (t.reg 4), control t)) =
      some (9, 9, [0x110, 0, 0x42133A, 0]) := by decide

/-- CMP-1, CMP-2: the scan goes down to limb 0. -/
theorem test_cmp :
    seen (start 2 [(1, 0x100), (2, 1)] [0x00021040]) control = some [4, 1, 0, 0] ∧
    seen (start 2 [(1, 0x100), (2, 0x101)] [0x00021040]) control = some [2, 1, 0, 0] := by decide

/-- RND-3, RND-8: the lone leading nibble. -/
theorem test_render :
    seen (start 8 [(1, 0xf)] [0x00001050]) (fun t => (t.rtext, t.rlen)) = some ([0x66], 1) ∧
    seen (start 4 [(1, 0xa0b0c)] [0x00001050]) (fun t => t.rtext) =
      some [0x61, 0x30, 0x62, 0x30, 0x63] := by decide

/-- RND-7, RND-4. -/
theorem test_render_zero :
    seen (start 1 [] [0x00001050]) (fun t => t.rtext) = some [0x30] ∧
    seen (start 2 [(1, 0x100)] [0x00001050]) (fun t => t.rtext) = some [0x31, 0x30, 0x30] := by decide

/-- The trace of DIV-9: n = 3, m = 4, d = 11, U = 0x08c8751f63, V = 0xf9d45d, and the add-back gives digit 8. -/
theorem test_pipeline_div9 :
    sigLimbs (ofNat 4 0x16b637) = 3 ∧ sigLimbs (ofNat 4 0xcc67bd09) = 4 ∧ scaleOf (ofNat 4 0x16b637) = 11 ∧
    val (scaledDividend (ofNat 4 0xcc67bd09) (ofNat 4 0x16b637)) = 0x08c8751f63 ∧
    val (scaledDivisor (ofNat 4 0x16b637)) = 0xf9d45d ∧
    divRef (ofNat 4 0xcc67bd09) (ofNat 4 0x16b637) = (ofNat 4 0x8ff, ofNat 4 0x168440) := by decide

/-- DIV-14: d = 128, the divisor's top limb 1. -/
theorem test_pipeline_div14 :
    scaleOf (ofNat 4 0x10000) = 128 ∧
    divRef (ofNat 4 0xffffffff) (ofNat 4 0x10000) = (ofNat 4 0xffff, ofNat 4 0xffff) := by decide

/-! ### Illegal commands, host actions, the fetch -/

/-- ENC-4: FCMD is the whole word. -/
theorem test_illegal_halts :
    seen (start 8 [] [0x01032120]) control = some [0x240, 0, 0x01032120, 0] := by decide

/-- EXC-6: a missing literal word is a step that changes nothing. -/
theorem test_literal_wait :
    seen (start 1 [] [0x00000110, 5]) (fun t => decide (t = start 1 [] [0x00000110, 5])) = some true := by decide

/-- The state of EXC-1 after its trap, with the host's RESUME next. -/
def trappedState : State :=
  { (start 8 [(1, 300)] [0x00021138, 0x00005521]).enter .trapped .divByZero 0x00021138 with
    schedule := [.host .resume] }

/-- EXC-1: RESUME. -/
theorem test_resume :
    seen trappedState (fun t => (control t, val (t.reg 1), t.schedule)) =
      some ([0x10, 1, 0x21138, 0], 300, []) := by decide

/-- EXC-3: RESET of a halted block. -/
theorem test_reset :
    seen { (start 8 [(1, 7)] [0]).enter .halted .illegalCommand 0 with schedule := [.host .reset] }
      (fun t => decide (t = State.resetWith 8)) = some true := by decide

/-- R24: the bytes of the first word of the example of R53. -/
theorem test_supply_bytes :
    wordsOfBytes [0x20, 0x21, 0x03, 0x00, 0x11, 0x01] = [0x00032120] := by decide

theorem test_supply :
    seen { start 1 [] [0x00000110, 5] with schedule := [.host (.supply [0])] } (fun t => t.stream) =
      some [0x00000110, 5, 0] := by decide

theorem test_fetch_word_runs_first :
    step (State.reset.withFetchWord 32 0x00000111) =
      exec (.ldu16 1 0) (State.reset.withFetchWord 32 0x00000111) := by rfl

/-- Lines of P1, P3 and P2 with their words (section 4 of the vectors). -/
theorem test_assembler :
    assemble ["LDU16 v1, #300 ; a comment".toList, "DIVREM v3, v4, v1, v2".toList, "INC v3".toList] =
      some [0x00000111, 0x12C, 0, 0x0042133A, 0x00003321] ∧
    assemble ["LDS32 v2, #-5".toList] = some [0x00000216, 0xFFFFFFFB, 0] ∧
    assemble ["LDU8 v1, #256".toList] = none ∧ assemble ["ADD v1, v2, v16".toList] = none ∧
    assemble ["DIVREM v3, v3, v1, v2".toList] = none := by decide

/-! ### Witnesses: states and operands that meet a statement's hypotheses -/

theorem start_regsWf : (start 2 [(1, 0xffff), (2, 1)] []).regsWf := by unfold State.regsWf; decide

/-- AddIsTheSumModuloTwoToTheW, IncAddsOneModuloTwoToTheW, SubIsTheDifferenceModuloTwoToTheW,
DecSubtractsOneModuloTwoToTheW, NegIsTheAdditiveInverse, MulIsTheProductModuloTwoToTheW, CmpSetsExactlyTheRightFlag:
well-formed registers, with the largest value and 1 in them. -/
theorem witness_arithmetic :
    (start 2 [(1, 0xffff), (2, 1)] []).regsWf ∧ val ((start 2 [(1, 0xffff), (2, 1)] []).reg 1) = 0xffff ∧
    val ((start 2 [(1, 0xffff), (2, 1)] []).reg 2) = 1 := ⟨start_regsWf, by decide, by decide⟩

/-- DivuIsTheQuotientOrTraps, RemuIsTheRemainderOrTraps, DivremIsBothOrTraps: each clause's divisor and destinations. -/
theorem witness_division :
    (start 2 [(1, 0xffff), (2, 1)] []).regsWf ∧ val ((start 2 [(1, 0xffff), (2, 1)] []).reg 2) ≠ 0 ∧
    val ((start 2 [(1, 0xffff), (2, 1)] []).reg 0) = 0 ∧ (3 : Reg) ≠ 4 := ⟨start_regsWf, by decide, by decide, by decide⟩

/-- DivremThenMulAddGivesTheDividend, with p = q. -/
theorem witness_division_identity :
    (start 2 [(1, 0xffff), (2, 1)] []).regsWf ∧ (3 : Reg) ≠ 4 ∧ (3 : Reg) ≠ 2 ∧ (4 : Reg) ≠ 2 ∧
    val ((start 2 [(1, 0xffff), (2, 1)] []).reg 2) ≠ 0 := ⟨start_regsWf, by decide, by decide, by decide, by decide⟩

/-- UnsignedWidening: a width halt at N = 1 for S = 16, and a fit at N = 2 for S = 16, at N = 1 for S = 8, at N = 8 for
S = 64; a literal one bit too wide. -/
theorem witness_unsigned_widening :
    8 * (start 1 [] []).limbs < 16 ∧ 16 ≤ 8 * (start 2 [] []).limbs ∧ 8 ≤ 8 * (start 1 [] []).limbs ∧
    64 ≤ 8 * (start 8 [] []).limbs ∧ 2 ^ 32 ≤ (0 : Word).toNat + 2 ^ 32 * (1 : Word).toNat := by decide

/-- SignedWideningRefusesNegatives: the least negative pattern and the greatest non-negative one of S = 16. -/
theorem witness_signed_widening :
    8 * (start 1 [] []).limbs < 16 ∧ 16 ≤ 8 * (start 2 [] []).limbs ∧ 2 ^ 15 ≤ (0x8000#16).toNat ∧
    (0x7FFF#16).toNat < 2 ^ 15 ∧ 2 ^ 16 ≤ (0x10000 : Word).toNat + 2 ^ 32 * (0 : Word).toNat := by decide

/-- DecodeOfEncodeIsIdentity. -/
theorem witness_wellFormed : (Instr.divrem 15 0 15 0).wellFormed = true := by decide

/-- EncodeOfDecodeIsTheWordsRead and LengthFollowsFromOpcode, first clause. -/
theorem witness_decoded :
    decode 0x00000F17 [0xFFFFFFFF, 0xFFFFFFFF, 7] = .instr (.lds64 15 0xFFFFFFFFFFFFFFFF) := by decide

/-- LengthFollowsFromOpcode, second clause. -/
theorem witness_illegal_alone : decode 0x00000018 [] = .illegal .unknownOpcode := by decide

/-- StepRunsTheDecodedCommand, with the block's turn in the schedule and at its end. -/
theorem witness_step_runs :
    let s : State := { start 1 [] [0x00000301] with schedule := [.block] }
    s.schedule = .block :: [] ∧ s.run = RunState.ready.code ∧ s.cfg ≠ 0 ∧ Memory.wf s.stream = true ∧
    s.stream.drop s.cp.toNat = 0x00000301 :: [] ∧ decode 0x00000301 [] = .instr (.zero 3) ∧
    (start 1 [] [0x00000301]).schedule = [] := by decide

/-- StepHaltsOnAnIllegalCommand: each clause of illegalSpelling at a boundary. -/
theorem witness_step_illegal :
    let s : State := start 1 [] [0x00000018]
    s.schedule = [] ∧ s.run = RunState.ready.code ∧ s.cfg ≠ 0 ∧ Memory.wf s.stream = true ∧
    s.stream.drop s.cp.toNat = 0x00000018 :: [] ∧ illegalSpelling 0x00000018 [] ∧
    illegalSpelling 0x00FF00FF#32 [] ∧ illegalSpelling 0x0033133A [] ∧ illegalSpelling 0x00000110 [0x100, 0] := by
  refine ⟨rfl, rfl, by decide, rfl, rfl, (.inl (by simp [opcodeRows])), (.inl (by simp [opcodeRows])), .inr (.inl (by decide)),
    .inr (.inr ⟨by decide, 0x100, 0, [], rfl, by decide⟩)⟩

/-- IdleBlockHoldsAllState: its four clauses. -/
theorem witness_idle :
    let s : State := start 1 [] [0x00000110, 5]
    s.schedule = [] ∧ s.cfg ≠ 0 ∧ Memory.wf s.stream = true ∧ s.run = RunState.ready.code ∧
    s.stream.drop s.cp.toNat = [0x00000110, 5] ∧ [(5 : Word)].length < 2 ∧
    (0x00000110 : Word) &&& 0xFFFFF0FF#32 = BitVec.ofNat 32 (0x10 + 0) ∧
    (start 1 [] []).stream.length ≤ (start 1 [] []).cp.toNat ∧ trappedState.run = RunState.trapped.code ∧
    (s.enter .halted .contractWidth 0).run = RunState.halted.code := by decide

/-- RippleAddIsModularAddition, AdditiveGroupLaws, MultiplierRingLaws, CompareIsTheUnsignedOrder,
IncDecNegAreRipples. -/
theorem witness_values :
    (ofNat 2 0xffff).length = (ofNat 2 1).length ∧ val (ofNat 2 1) = 1 ∧
    rippleAdd (ofNat 2 0xffff) (ofNat 2 1) 1 = ofNat 2 1 := by decide

/-- DivModPostcondition, ReferencePipelineIsDivMod, ScaledDivisorIsNormalized: a divisor of more than one limb. -/
theorem witness_divMod :
    (ofNat 4 0xcc67bd09).length = (ofNat 4 0x16b637).length ∧ val (ofNat 4 0x16b637) ≠ 0 ∧
    val (ofNat 4 5) < val (ofNat 4 0x16b637) := by decide

/-- TrialDigitLoweredAtMostTwice: DIV-10's first trial digit, 254 corrected to 252. -/
theorem witness_trial_digit :
    128 ≤ 0x92 ∧ (correctDigit 0x92 0xff 0x15 256 254 (0x9109 % 0x92)).1 = 252 := by decide

/-- RelationsReadOffTheFlags: a compare that answers, and the flags at reset. -/
theorem witness_relations :
    (start 2 [(1, 0xffff), (2, 1)] []).regsWf ∧
    (∃ t, exec (.cmp 1 2) (start 2 [(1, 0xffff), (2, 1)] []) = .next t ∧ t.flags = (false, false, true)) ∧
    (start 2 [] []).flags = (false, false, false) :=
  ⟨start_regsWf, ⟨_, rfl, by decide⟩, by decide⟩

/-- RenderIsTheMinimalHexNumeral: zero and a value with a zero top nibble. -/
theorem witness_render :
    ofNat 2 0 ≠ [] ∧ val (ofNat 2 0) = 0 ∧ render (ofNat 2 0) = [0x30] ∧ val (ofNat 2 0xabc) ≠ 0 ∧
    render (ofNat 2 0xabc) = [0x61, 0x62, 0x63] := by decide

/-- TextWrittenOnlyByRender, FlagsWrittenOnlyByCmp, OnlyXferDraws: commands that answer. -/
theorem witness_commands_answer :
    (∃ t, exec (.zero 1) (start 2 [] []) = .next t) ∧ (∃ t, exec (.render 1) (start 2 [] []) = .next t) ∧
    (∃ t, exec (.cmp 1 1) (start 2 [] []) = .next t) ∧ 1 ≤ (start 2 [(1, 0xffff), (2, 1)] []).limbs ∧
    (start 2 [(1, 0xffff), (2, 1)] []).regsWf := by
  exact ⟨⟨_, rfl⟩, ⟨_, rfl⟩, ⟨_, rfl⟩, by decide, start_regsWf⟩

/-- ResultsIgnoreControlState: XFER from two states that differ in all the rest, and CMP from two whose draw counters
differ too. -/
theorem witness_control_state :
    let s := start 2 [(1, 5)] []
    let r : State := { s with cp := 7, status := 0x112, fcmd := 9, fcp := 7 }
    let s' : State := { r with rtext := [0x30], stream := [9], schedule := [.block] }
    s.regs = s'.regs ∧ s.cfg = s'.cfg ∧ (∀ d a, Instr.xfer 3 1 = .xfer d a → s.draws = s'.draws) ∧
    ({ s' with draws := 4 } : State).draws ≠ s.draws ∧
    (∀ d a, Instr.cmp 3 1 = .xfer d a → s.draws = ({ s' with draws := 4 } : State).draws) :=
  ⟨rfl, rfl, fun _ _ _ => rfl, by decide, fun _ _ h => by cases h⟩

/-- CausesRaisedExactlyAsTabled: a trap, both contract halts and a command that completes. -/
theorem witness_causes :
    (Instr.divu 3 1 2).wellFormed = true ∧ (start 2 [] []).run = RunState.ready.code ∧
    (∃ t, exec (.divu 3 1 2) (start 2 [] []) = .next t ∧ t.run = RunState.trapped.code) ∧
    (∃ t, exec (.lds32 3 1) (start 2 [] []) = .next t ∧ t.cause = Cause.contractWidth.code) ∧
    (∃ t, exec (.lds16 3 0x8000) (start 2 [] []) = .next t ∧ t.cause = Cause.contractNegative.code) := by
  exact ⟨by decide, by decide, ⟨_, rfl, by decide⟩, ⟨_, rfl, by decide⟩, ⟨_, rfl, by decide⟩⟩

/-- StoppedBlockExecutesNothing: a halted block given RESUME, and a trapped one given the turn. -/
theorem witness_stopped :
    let h : State := { (start 1 [] [0]).enter .halted .illegalCommand 0 with schedule := [.host .resume] }
    let p : State := { trappedState with schedule := [.block] }
    h.run = RunState.halted.code ∧ h.schedule.head? ≠ some (.host .reset) ∧ (∃ t, step h = .next t) ∧
    p.run = RunState.trapped.code ∧ p.schedule.head? ≠ some (.host .resume) ∧ (∃ t, step p = .next t) :=
  ⟨by decide, by decide, ⟨_, rfl⟩, by decide, by decide, ⟨_, rfl⟩⟩

/-- ResumeSkipsTheTrappedCommand: both clauses and the turn. -/
theorem witness_resume :
    trappedState.run = RunState.trapped.code ∧ (start 1 [] []).run ≠ RunState.trapped.code ∧
    trappedState.schedule = .host .resume :: [] := by decide

/-- ResetValuesFromAnyState, SupplyAppendsOrIsRefused (it fits), ReadHasNoSideEffect: the turns. The refusing clause of
SUPPLY is met by a list of 2^32 words, which no test writes out. -/
theorem witness_host_turns :
    let r : State := { start 1 [] [] with schedule := [.host .reset] }
    let w : State := { start 1 [] [] with schedule := [.host (.supply [1])] }
    let d : State := { start 1 [] [] with schedule := [.host (.read .rtext)] }
    r.schedule = .host .reset :: [] ∧ w.schedule = .host (.supply [1]) :: [] ∧
    w.stream.length + [(1 : Word)].length ≤ 2 ^ 32 - 1 ∧ d.schedule = .host (.read .rtext) :: [] := by decide

/-- The refusing clause of SupplyAppendsOrIsRefused. -/
theorem witness_supply_refused :
    2 ^ 32 - 1 < (start 1 [] []).stream.length + (List.replicate (2 ^ 32) (0 : Word)).length := by
  rw [List.length_replicate]; decide

/-- EveryStepKeepsTheInvariant, InvariantStatesNeverStop, CommandPointerNeverGoesBack, RecordNamesTheStoppedCommand,
WidthNeverChanges, StreamIsAppendOnly: a trapped state about to be resumed meets the invariant and steps. -/
theorem witness_invariant_trapped :
    Inv trappedState ∧ trappedState.schedule.head? ≠ some (.host .reset) ∧ (∃ t, step trappedState = .next t) := by
  refine ⟨⟨by decide, by unfold State.regsWf; decide, by decide, by decide,
    ⟨by decide, by decide, by decide, by decide, by decide, by decide, by decide⟩, .inl rfl, by decide, by decide,
    by decide, by decide, by decide⟩, by decide, ⟨_, rfl⟩⟩

/-- InvariantStatesNeverStop: a SUPPLY that fits. -/
theorem witness_invariant_supply :
    ∀ ws rest, trappedState.schedule = .host (.supply ws) :: rest →
      trappedState.stream.length + ws.length ≤ 2 ^ 32 - 1 := by
  intro ws rest h
  simp [trappedState] at h

/-- ResetMeetsTheInvariant. -/
theorem witness_reset_width : (1 : Word) ≠ 0 ∧ (0xFFFFFFFF : Word) ≠ 0 := by decide

/-- PostfixFormsYieldTheOldValue. -/
theorem witness_postfix : (1 : Reg) ≠ 2 ∧ (start 2 [(1, 0xffff), (2, 1)] []).regsWf := ⟨by decide, start_regsWf⟩

/-- LdiPicksTheSmallestWidth: the greatest of a width and the least that is refused. -/
theorem witness_ldi :
    255 < 2 ^ 64 ∧ 2 ^ 64 ≤ 2 ^ 64 ∧
    assembleOp .ldi [.reg 1, .lit false 255] = some [.ldu8 1 255] ∧
    assembleOp .ldi [.reg 1, .lit false 256] = some [.ldu16 1 256] := by decide

/-- NegativeLiteralsAreEncodedAndHalt: the least literal of each width, one below it, and the least N each fits. -/
theorem witness_negative_literals :
    1 ≤ 2 ^ 7 ∧ 8 ≤ 8 * (start 1 [] []).limbs ∧ 16 ≤ 8 * (start 2 [] []).limbs ∧
    32 ≤ 8 * (start 4 [] []).limbs ∧ 64 ≤ 8 * (start 8 [] []).limbs ∧
    assembleOp (.cmd .lds8) [.reg 1, .lit true (2 ^ 7)] = some [.lds8 1 0x80] ∧
    assembleOp (.cmd .lds16) [.reg 1, .lit true (2 ^ 15)] = some [.lds16 1 0x8000] ∧
    assembleOp (.cmd .lds32) [.reg 1, .lit true (2 ^ 31)] = some [.lds32 1 0x80000000] ∧
    assembleOp (.cmd .lds64) [.reg 1, .lit true (2 ^ 63)] = some [.lds64 1 0x8000000000000000] ∧
    assembleOp (.cmd .lds8) [.reg 1, .lit true (2 ^ 7 + 1)] = none ∧
    assembleOp (.cmd .lds16) [.reg 1, .lit true (2 ^ 15 + 1)] = none ∧
    assembleOp (.cmd .lds32) [.reg 1, .lit true (2 ^ 31 + 1)] = none ∧
    assembleOp (.cmd .lds64) [.reg 1, .lit true (2 ^ 63 + 1)] = none := by decide

end Sys2Proof.Tests
end

section
/-! PROOFS of the family 00_scope.md. Everything a command can do to the state, said once (spec/10_state.md R11;
spec/60_exceptions.md R88, R89), and from it that CFG is constant (spec/00_scope.md R2, spec/10_state.md R17). -/

namespace Sys2Proof.Machine

/-! ### A command completes or stops -/

/-- The answer r to the command i in state s is a next state that either has completed i or has stopped with a trap or
halt at it. -/
def completesOrStops (i : Instr) (s : State) (r : Result) : Prop :=
  ∃ t, r = .next t ∧
    (completed i s t ∨ ∃ run cause, run ≠ .ready ∧ cause ≠ .none ∧ stoppedWith run cause i.commandWord s t)

/-- The words of a command are as many as its opcode says (R46). -/
theorem length_encode (i : Instr) : (encode i).length = i.opcode.words := by cases i <;> rfl

section
variable (i : Instr) (s : State)

theorem completed_advance {u : State} (hcp : u.cp = s.cp) (hrun : u.run = s.run) (hcause : u.cause = s.cause)
    (hrec : sameRecord s u) : completed i s (u.advance i.opcode.words) := by
  refine ⟨?_, hrun, hcause, hrec⟩
  rw [completedBy, cp_advance, hcp, length_encode]

theorem completesOrStops_finish {u : State} (hcp : u.cp = s.cp) (hrun : u.run = s.run) (hcause : u.cause = s.cause)
    (hrec : sameRecord s u) : completesOrStops i s (finish i u) :=
  ⟨_, finish_eq i u, .inl (completed_advance i s hcp hrun hcause hrec)⟩

theorem completesOrStops_setReg (d : Reg) (v : Value) : completesOrStops i s (finish i (s.setReg d v)) :=
  completesOrStops_finish i s rfl rfl rfl ⟨rfl, rfl, rfl, rfl, rfl⟩

theorem completesOrStops_raiseTrap {c : Cause} (hc : c ≠ .none) : completesOrStops i s (raiseTrap c i s) := by
  obtain ⟨t, ht, hstop⟩ := raiseTrap_spec c i s
  exact ⟨t, ht, .inr ⟨.trapped, c, by decide, hc, hstop⟩⟩

theorem completesOrStops_raiseHalt {c : Cause} (hc : c ≠ .none) : completesOrStops i s (raiseHalt c i s) := by
  obtain ⟨t, ht, hstop⟩ := raiseHalt_spec c i s
  exact ⟨t, ht, .inr ⟨.halted, c, by decide, hc, hstop⟩⟩

theorem completesOrStops_widenU (d : Reg) {S : Nat} (lit : BitVec S) : completesOrStops i s (widenU i d lit s) := by
  obtain ⟨-, h⟩ | ⟨-, h⟩ := widenU_cases i d lit s
  · rw [h]; exact completesOrStops_raiseHalt i s (by decide)
  · rw [h]; exact completesOrStops_setReg i s d _

theorem completesOrStops_widenS (d : Reg) {S : Nat} (lit : BitVec S) : completesOrStops i s (widenS i d lit s) := by
  obtain ⟨-, h⟩ | ⟨-, -, h⟩ | ⟨-, -, h⟩ := widenS_cases i d lit s
  · rw [h]; exact completesOrStops_raiseHalt i s (by decide)
  · rw [h]; exact completesOrStops_raiseHalt i s (by decide)
  · rw [h]; exact completesOrStops_setReg i s d _

/-- The shape of DIVU, REMU and DIVREM: a zero divisor traps (R78 to R80). -/
theorem completesOrStops_division (b : Reg) {r : Result} (h : completesOrStops i s r) :
    completesOrStops i s (if val (s.reg b) = 0 then raiseTrap .divByZero i s else r) := by
  split
  · exact completesOrStops_raiseTrap i s (by decide)
  · exact h

end

theorem completesOrStops_execXfer (d a : Reg) (s : State) : completesOrStops (.xfer d a) s (execXfer d a s) := by
  unfold execXfer
  split
  · exact completesOrStops_finish _ s rfl rfl rfl ⟨rfl, rfl, rfl, rfl, rfl⟩
  · exact completesOrStops_finish _ s rfl rfl rfl ⟨rfl, rfl, rfl, rfl, rfl⟩

theorem completesOrStops_execDivrem (d c a b : Reg) (s : State) :
    completesOrStops (.divrem d c a b) s (execDivrem d c a b s) := by
  unfold execDivrem
  split
  · exact completesOrStops_raiseHalt _ s (by decide)
  · exact completesOrStops_division _ s b (completesOrStops_finish _ s rfl rfl rfl ⟨rfl, rfl, rfl, rfl, rfl⟩)

/-- What a command can do, guards aside, said once for all twenty-two. -/
theorem exec_completesOrStops (i : Instr) (s : State) : completesOrStops i s (exec i s) := by
  cases i with
  | zero d => exact completesOrStops_setReg _ s d _
  | mov d a => exact completesOrStops_setReg _ s d _
  | xfer d a => exact completesOrStops_execXfer d a s
  | ldu8 d lit => exact completesOrStops_widenU _ s d lit
  | ldu16 d lit => exact completesOrStops_widenU _ s d lit
  | ldu32 d lit => exact completesOrStops_widenU _ s d lit
  | ldu64 d lit => exact completesOrStops_widenU _ s d lit
  | lds8 d lit => exact completesOrStops_widenS _ s d lit
  | lds16 d lit => exact completesOrStops_widenS _ s d lit
  | lds32 d lit => exact completesOrStops_widenS _ s d lit
  | lds64 d lit => exact completesOrStops_widenS _ s d lit
  | add d a b => exact completesOrStops_setReg _ s d _
  | inc d a => exact completesOrStops_setReg _ s d _
  | sub d a b => exact completesOrStops_setReg _ s d _
  | dec d a => exact completesOrStops_setReg _ s d _
  | neg d a => exact completesOrStops_setReg _ s d _
  | mul d a b => exact completesOrStops_setReg _ s d _
  | divu d a b => exact completesOrStops_division _ s b (completesOrStops_setReg _ s d _)
  | remu d a b => exact completesOrStops_division _ s b (completesOrStops_setReg _ s d _)
  | divrem d c a b => exact completesOrStops_execDivrem d c a b s
  | cmp a b => exact completesOrStops_finish _ s rfl (run_setFlags s _) (cause_setFlags s _) ⟨rfl, rfl, rfl, rfl, rfl⟩
  | render a => exact completesOrStops_finish _ s rfl rfl rfl ⟨rfl, rfl, rfl, rfl, rfl⟩

/-- The inversion of exec: a next state has completed the command or has stopped at it. -/
theorem exec_next {i : Instr} {s t : State} (h : exec i s = .next t) :
    completed i s t ∨ ∃ run cause, run ≠ .ready ∧ cause ≠ .none ∧ stoppedWith run cause i.commandWord s t := by
  obtain ⟨u, hu, hcases⟩ := exec_completesOrStops i s
  rw [h] at hu
  cases hu
  exact hcases

/-! ### CFG is constant -/

@[simp] theorem cfg_resume (s : State) : s.resume.cfg = s.cfg := by
  unfold State.resume
  split <;> rfl

theorem cfg_of_completed {i : Instr} {s t : State} (h : completed i s t) : t.cfg = s.cfg := by
  obtain ⟨-, -, -, -, -, hcfg, -⟩ := h
  exact hcfg

theorem cfg_of_stoppedWith {run : RunState} {c : Cause} {w : Word} {s t : State} (h : stoppedWith run c w s t) :
    t.cfg = s.cfg := by
  obtain ⟨-, -, -, -, -, -, -, -, hcfg, -⟩ := h
  exact hcfg

theorem exec_keeps_cfg {i : Instr} {s t : State} (h : exec i s = .next t) : t.cfg = s.cfg := by
  obtain hdone | ⟨_, _, -, -, hstop⟩ := exec_next h
  · exact cfg_of_completed hdone
  · exact cfg_of_stoppedWith hstop

theorem blockStep_keeps_cfg {s t : State} (h : blockStep s = .next t) : t.cfg = s.cfg := by
  obtain ⟨-, rfl⟩ | ⟨w, -, rfl⟩ | ⟨i, -, hexec⟩ := blockStep_next h
  · rfl
  · exact cfg_enter s .halted .illegalCommand w
  · exact exec_keeps_cfg hexec

theorem hostStep_keeps_cfg {a : HostAction} {s t : State} (h : hostStep a s = .next t) : t.cfg = s.cfg := by
  obtain ⟨ws, -, -, rfl⟩ | ⟨r, -, rfl⟩ | ⟨-, rfl⟩ | ⟨-, rfl⟩ := hostStep_next h
  · rfl
  · rfl
  · exact cfg_resume s
  · exact cfg_hostReset s

theorem step_keeps_cfg {s t : State} (h : step s = .next t) : t.cfg = s.cfg := by
  obtain ⟨rest, -, hblock⟩ | ⟨a, rest, -, hhost⟩ := step_next h
  · calc t.cfg = ({ s with schedule := rest } : State).cfg := blockStep_keeps_cfg hblock
      _ = s.cfg := rfl
  · calc t.cfg = ({ s with schedule := rest } : State).cfg := hostStep_keeps_cfg hhost
      _ = s.cfg := rfl

end Sys2Proof.Machine

namespace Sys2Proof

open Machine

/-- Settles O51: every turn, the block's or the host's, keeps CFG, and N and the host's READ of CFG are functions of it
(R2, R17). -/
theorem widthNeverChanges : Obligations.WidthNeverChanges := by
  unfold Obligations.WidthNeverChanges
  intro s t h
  have hcfg : t.cfg = s.cfg := step_keeps_cfg h
  exact ⟨hcfg, congrArg BitVec.toNat hcfg, congrArg HostData.word hcfg⟩

end Sys2Proof
end

section
/-! PROOFS of the family 10_state.md. What a command writes, said once; the words a decoded command was read from; and
the parts of the invariant, from which every statement of the family follows. -/

namespace Sys2Proof

/-! ### The words a command was decoded from (R43, R46) -/

/-- The command word of opcode op with the fields of w that op uses, every other field 0. -/
def Opcode.usedWord (op : Opcode) (w : Word) : Word :=
  packWord op.code (if op.uses.d then dField w else 0) (if op.uses.a then aField w else 0)
    (if op.uses.b then bField w else 0) (if op.uses.c then cField w else 0)

theorem usedWord_eq {op : Opcode} {w : Word} (hop : Opcode.ofCode (opField w) = some op) (hrsv : rsvField w = 0)
    (hunused : op.unusedNonzero w = false) : op.usedWord w = w := by
  simp only [Opcode.unusedNonzero, Bool.or_eq_false_iff, Bool.and_eq_false_imp, Bool.not_eq_true', bne_eq_false_iff_eq]
    at hunused
  obtain ⟨⟨⟨hd, ha⟩, hb⟩, hc⟩ := hunused
  have hused : ∀ (u : Bool) (r : Reg), (u = false → r = 0) → (if u = true then r else 0) = r := by
    intro u r hr
    cases u with
    | false => exact (hr rfl).symm
    | true => rfl
  rw [Opcode.usedWord, hused _ _ hd, hused _ _ ha, hused _ _ hb, hused _ _ hc, code_of_ofCode hop,
    packWord_fields hrsv]

theorem withLiteral_instr {S : Nat} {mk : BitVec S → Instr} {rest : List Word} {i : Instr}
    (h : withLiteral S mk rest = .instr i) : ∃ lit, i = mk lit ∧ 2 ≤ rest.length := by
  match rest, h with
  | lo :: hi :: rest, h =>
    simp only [withLiteral] at h
    split at h
    · cases h
    · cases h; exact ⟨_, rfl, by simp⟩

theorem decodeOperands_instr {op : Opcode} {w : Word} {rest : List Word} {i : Instr}
    (h : decodeOperands op w rest = .instr i) :
    i.opcode = op ∧ i.commandWord = op.usedWord w ∧ op.words ≤ rest.length + 1 := by
  cases op
  case ldu8 | ldu16 | ldu32 | ldu64 | lds8 | lds16 | lds32 | lds64 =>
    obtain ⟨lit, rfl, hlen⟩ := withLiteral_instr h
    exact ⟨rfl, rfl, Nat.succ_le_succ hlen⟩
  case divrem =>
    simp only [decodeOperands] at h
    split at h
    · cases h
    · cases h; exact ⟨rfl, rfl, Nat.le_add_left 1 _⟩
  case zero | mov | xfer | add | inc | sub | dec | neg | mul | divu | remu | cmp | render =>
    cases h; exact ⟨rfl, rfl, Nat.le_add_left 1 _⟩

/-- A decoded command's word is the word it was decoded from, and its other words are there. -/
theorem decode_instr_words {w : Word} {rest : List Word} {i : Instr} (h : decode w rest = .instr i) :
    i.commandWord = w ∧ i.opcode.words ≤ rest.length + 1 := by
  obtain ⟨op, hop, hrsv, hunused, hoperands⟩ := decode_instr h
  obtain ⟨rfl, hword, hlen⟩ := decodeOperands_instr hoperands
  exact ⟨hword.trans (usedWord_eq hop hrsv hunused), hlen⟩

end Sys2Proof

namespace Sys2Proof.Machine

/-! ### What a command writes -/

/-- The run states and causes that trap and halt entry write together (R88, R89). -/
def entersAs (run : RunState) (cause : Cause) : Prop :=
  (run = .trapped ∧ cause = .divByZero) ∨ (run = .halted ∧ cause ≠ .none ∧ cause ≠ .divByZero)

/-- What a command that completes writes before CP moves on: value registers and draws, with N limbs to each register
if they had them; and CMP alone the flags (R13), RENDER alone the text (R19). -/
inductive Writes (s : State) : Instr → State → Prop
  | values {i : Instr} (rs : Vector Value 16) (n : Nat)
      (hregs : s.regsWf → ({ s with regs := rs, draws := n } : State).regsWf) :
      Writes s i { s with regs := rs, draws := n }
  | flags (a b : Reg) : Writes s (.cmp a b) (s.setFlags (compareValues (s.reg a) (s.reg b)))
  | text (a : Reg) : Writes s (.render a) (s.setText (render (s.reg a)))

/-- The answer r to the command i in state s is a next state: the entry of a trap or halt, or what i writes with CP
past its words. -/
def writesOrEnters (i : Instr) (s : State) (r : Result) : Prop :=
  ∃ t, r = .next t ∧
    ((∃ run cause, entersAs run cause ∧ t = s.enter run cause i.commandWord) ∨
      ∃ u, Writes s i u ∧ t = u.advance i.opcode.words)

theorem regsWf_setReg {s : State} {d : Reg} {v : Value} (hs : s.regsWf) (hv : v.length = s.limbs) :
    (s.setReg d v).regsWf := by
  intro r
  rw [reg_setReg]
  split
  · exact hv
  · exact hs r

section
variable (i : Instr) (s : State)

theorem writesOrEnters_raiseTrap : writesOrEnters i s (raiseTrap .divByZero i s) :=
  ⟨_, rfl, .inl ⟨.trapped, .divByZero, .inl ⟨rfl, rfl⟩, rfl⟩⟩

theorem writesOrEnters_raiseHalt {c : Cause} (hnone : c ≠ .none) (hdiv : c ≠ .divByZero) :
    writesOrEnters i s (raiseHalt c i s) :=
  ⟨_, rfl, .inl ⟨.halted, c, .inr ⟨rfl, hnone, hdiv⟩, rfl⟩⟩

theorem writesOrEnters_finish {u : State} (h : Writes s i u) : writesOrEnters i s (finish i u) :=
  ⟨_, rfl, .inr ⟨u, h, rfl⟩⟩

theorem writesOrEnters_setReg (d : Reg) (v : Value) (hv : s.regsWf → v.length = s.limbs) :
    writesOrEnters i s (finish i (s.setReg d v)) :=
  writesOrEnters_finish i s (.values (s.setReg d v).regs s.draws fun hs => regsWf_setReg hs (hv hs))

theorem writesOrEnters_widenU (d : Reg) {S : Nat} (lit : BitVec S) : writesOrEnters i s (widenU i d lit s) := by
  obtain ⟨-, h⟩ | ⟨-, h⟩ := widenU_cases i d lit s
  · rw [h]; exact writesOrEnters_raiseHalt i s (by decide) (by decide)
  · rw [h]; exact writesOrEnters_setReg i s d _ fun _ => length_widen _ lit

theorem writesOrEnters_widenS (d : Reg) {S : Nat} (lit : BitVec S) : writesOrEnters i s (widenS i d lit s) := by
  obtain ⟨-, h⟩ | ⟨-, -, h⟩ | ⟨-, -, h⟩ := widenS_cases i d lit s
  · rw [h]; exact writesOrEnters_raiseHalt i s (by decide) (by decide)
  · rw [h]; exact writesOrEnters_raiseHalt i s (by decide) (by decide)
  · rw [h]; exact writesOrEnters_setReg i s d _ fun _ => length_widen _ lit

/-- The shape of DIVU, REMU and DIVREM: a zero divisor traps (R78 to R80). -/
theorem writesOrEnters_division (b : Reg) {r : Result} (h : writesOrEnters i s r) :
    writesOrEnters i s (if val (s.reg b) = 0 then raiseTrap .divByZero i s else r) := by
  split
  · exact writesOrEnters_raiseTrap i s
  · exact h

end

theorem writesOrEnters_execXfer (d a : Reg) (s : State) : writesOrEnters (.xfer d a) s (execXfer d a s) := by
  unfold execXfer
  split
  · exact writesOrEnters_finish _ s (.values (s.setReg d s.drawValue).regs _ fun hs =>
      regsWf_setReg hs (length_drawValue s))
  · exact writesOrEnters_finish _ s (.values ((s.setReg d (s.reg a)).setReg a s.drawValue).regs _ fun hs =>
      regsWf_setReg (regsWf_setReg hs (hs a)) (length_drawValue s))

theorem writesOrEnters_execDivrem (d c a b : Reg) (s : State) :
    writesOrEnters (.divrem d c a b) s (execDivrem d c a b s) := by
  unfold execDivrem
  split
  · exact writesOrEnters_raiseHalt _ s (by decide) (by decide)
  · obtain ⟨hq, hr⟩ := length_divMod (s.reg a) (s.reg b)
    exact writesOrEnters_division _ s b (writesOrEnters_finish _ s (.values _ _ fun hs =>
      regsWf_setReg (regsWf_setReg hs (hq.trans (hs a))) (hr.trans (hs a))))

/-- What a command can write, said once for all twenty-two. -/
theorem exec_writesOrEnters (i : Instr) (s : State) : writesOrEnters i s (exec i s) := by
  cases i with
  | zero d => exact writesOrEnters_setReg _ s d _ fun _ => length_zeros _
  | mov d a => exact writesOrEnters_setReg _ s d _ fun hs => hs a
  | xfer d a => exact writesOrEnters_execXfer d a s
  | ldu8 d lit => exact writesOrEnters_widenU _ s d lit
  | ldu16 d lit => exact writesOrEnters_widenU _ s d lit
  | ldu32 d lit => exact writesOrEnters_widenU _ s d lit
  | ldu64 d lit => exact writesOrEnters_widenU _ s d lit
  | lds8 d lit => exact writesOrEnters_widenS _ s d lit
  | lds16 d lit => exact writesOrEnters_widenS _ s d lit
  | lds32 d lit => exact writesOrEnters_widenS _ s d lit
  | lds64 d lit => exact writesOrEnters_widenS _ s d lit
  | add d a b =>
    exact writesOrEnters_setReg _ s d _ fun hs => (length_rippleAdd _ _ 0 ((hs a).trans (hs b).symm)).trans (hs a)
  | inc d a => exact writesOrEnters_setReg _ s d _ fun hs => (length_increment _).trans (hs a)
  | sub d a b =>
    exact writesOrEnters_setReg _ s d _ fun hs => (length_rippleSub _ _ 0 ((hs a).trans (hs b).symm)).trans (hs a)
  | dec d a => exact writesOrEnters_setReg _ s d _ fun hs => (length_decrement _).trans (hs a)
  | neg d a =>
    exact writesOrEnters_setReg _ s d _ fun hs => ((length_increment _).trans (length_complement _)).trans (hs a)
  | mul d a b => exact writesOrEnters_setReg _ s d _ fun hs => (length_schoolbook _ _).trans (hs a)
  | divu d a b =>
    exact writesOrEnters_division _ s b
      (writesOrEnters_setReg _ s d _ fun hs => (length_divMod _ _).1.trans (hs a))
  | remu d a b =>
    exact writesOrEnters_division _ s b
      (writesOrEnters_setReg _ s d _ fun hs => (length_divMod _ _).2.trans (hs a))
  | divrem d c a b => exact writesOrEnters_execDivrem d c a b s
  | cmp a b => exact writesOrEnters_finish _ s (.flags a b)
  | render a => exact writesOrEnters_finish _ s (.text a)

/-- The inversion of exec, with what is written. -/
theorem exec_next_writes {i : Instr} {s t : State} (h : exec i s = .next t) :
    (∃ run cause, entersAs run cause ∧ t = s.enter run cause i.commandWord) ∨
      ∃ u, Writes s i u ∧ t = u.advance i.opcode.words := by
  obtain ⟨u, hu, hcases⟩ := exec_writesOrEnters i s
  rw [h] at hu
  cases hu
  exact hcases

/-- The inversion of the block's turn: it is idle; or it enters a trap or halt that records the stream's word at CP;
or it writes what a command of at most 3 words writes and moves CP past words of the stream. -/
theorem blockStep_next_writes {s t : State} (h : blockStep s = .next t) :
    t = s ∨
      (∃ run cause w, s.run = RunState.ready.code ∧ s.stream[s.cp.toNat]? = some w ∧ entersAs run cause ∧
        t = s.enter run cause w) ∨
      (∃ i u, s.run = RunState.ready.code ∧ s.cp.toNat + i.opcode.words ≤ s.stream.length ∧ Writes s i u ∧
        t = u.advance i.opcode.words) := by
  obtain ⟨-, rfl⟩ | ⟨w, hfetch, rfl⟩ | ⟨i, hfetch, hexec⟩ := blockStep_next h
  · exact .inl rfl
  · obtain ⟨hrun, rest, -, hwindow, -⟩ := fetch_illegal hfetch
    obtain ⟨hword, -⟩ := window_cons hwindow
    exact .inr (.inl ⟨.halted, .illegalCommand, w, hrun, hword, .inr ⟨rfl, by decide, by decide⟩, rfl⟩)
  · obtain ⟨hrun, w, rest, hwindow, hdecode⟩ := fetch_instr hfetch
    obtain ⟨hword, hlen⟩ := window_cons hwindow
    obtain ⟨rfl, hwords⟩ := decode_instr_words hdecode
    obtain ⟨run, cause, hentry, rfl⟩ | ⟨u, hwrites, rfl⟩ := exec_next_writes hexec
    · exact .inr (.inl ⟨run, cause, _, hrun, hword, hentry, rfl⟩)
    · exact .inr (.inr ⟨i, u, hrun, by omega, hwrites, rfl⟩)

/-! ### The text RENDER makes is a canonical numeral (R19, R85) -/

theorem isHexChar_hexDigit (h : BitVec 4) : isHexChar (hexDigit h) := by
  unfold isHexChar; revert h; decide

theorem isHexChar_hexText {v : Value} {c : Byte} (h : c ∈ hexText v) : isHexChar c := by
  simp only [hexText, hexLimb, List.mem_flatMap, List.mem_cons, List.not_mem_nil, or_false] at h
  obtain ⟨l, -, rfl | rfl⟩ := h
  · exact isHexChar_hexDigit _
  · exact isHexChar_hexDigit _

@[simp] theorem length_hexText (v : Value) : (hexText v).length = 2 * v.length := by
  simp [hexText, hexLimb, List.length_flatMap, Nat.mul_comm]

theorem stripPairs_suffix (t : List Byte) : stripPairs t <:+ t := by
  induction t using stripPairs.induct with
  | case1 x y z s hzero ih =>
    rw [stripPairs, if_pos hzero]
    exact ih.trans (List.suffix_append [x, y] (z :: s))
  | case2 x y z s hzero => rw [stripPairs, if_neg hzero]
  | case3 => exact List.suffix_rfl
  | case4 x => exact List.suffix_rfl
  | case5 x y => exact List.suffix_rfl

/-- What is left of whole pairs is at least one pair, and only a last pair may be "00". -/
theorem stripPairs_eq_cons {t : List Byte} (heven : t.length % 2 = 0) (hpos : t ≠ []) :
    ∃ x y s, stripPairs t = x :: y :: s ∧ (s ≠ [] → ¬ (x = charZero ∧ y = charZero)) := by
  induction t using stripPairs.induct with
  | case1 x y z s hzero ih =>
    rw [stripPairs, if_pos hzero]
    exact ih (by simp only [List.length_cons] at heven ⊢; omega) (by simp)
  | case2 x y z s hzero => exact ⟨x, y, z :: s, by rw [stripPairs, if_neg hzero], fun _ => hzero⟩
  | case3 => exact absurd rfl hpos
  | case4 x => simp at heven
  | case5 x y => exact ⟨x, y, [], rfl, fun h => absurd rfl h⟩

/-- The last stripping of a text that stripPairs leaves: the one digit of zero, or the text without a lone leading
"0", which then starts with another character. -/
theorem stripNibble_cases {x y : Byte} {s : List Byte} (h : s ≠ [] → ¬ (x = charZero ∧ y = charZero)) :
    stripNibble (x :: y :: s) = [charZero] ∨
      (y ≠ charZero ∧ stripNibble (x :: y :: s) = y :: s) ∨
      (x ≠ charZero ∧ stripNibble (x :: y :: s) = x :: y :: s) := by
  by_cases hx : x = charZero
  · by_cases hy : y = charZero
    · have hs : s = [] := by
        by_contra hs
        exact h hs ⟨hx, hy⟩
      subst hx hy hs
      exact .inl rfl
    · exact .inr (.inl ⟨hy, by simp [stripNibble, hx, hy]⟩)
  · exact .inr (.inr ⟨hx, by simp [stripNibble, hx]⟩)

/-- RENDER of a value with limbs gives a canonical numeral of at most two characters per limb. -/
theorem render_canonical {v : Value} (hv : v ≠ []) :
    1 ≤ (render v).length ∧ (render v).length ≤ 2 * v.length ∧ (∀ c ∈ render v, isHexChar c) ∧
      (1 < (render v).length → (render v).head? ≠ some charZero) := by
  have hlen : 0 < v.length := List.length_pos_iff.mpr hv
  have hne : hexText v ≠ [] := List.length_pos_iff.mp (by rw [length_hexText]; omega)
  obtain ⟨x, y, s, hpairs, hcanon⟩ := stripPairs_eq_cons (t := hexText v) (by simp) hne
  have hsuffix : x :: y :: s <:+ hexText v := hpairs ▸ stripPairs_suffix (hexText v)
  have hle : s.length + 2 ≤ 2 * v.length := length_hexText v ▸ hsuffix.length_le
  have hhex : ∀ c ∈ x :: y :: s, isHexChar c := fun c hc => isHexChar_hexText (hsuffix.subset hc)
  rw [render, hpairs]
  obtain h | ⟨hy, h⟩ | ⟨hx, h⟩ := stripNibble_cases hcanon
  · rw [h]; exact ⟨le_rfl, by simp; omega, by simp [isHexChar, charZero], by simp⟩
  · rw [h]; exact ⟨by simp, by simp; omega, fun c hc => hhex c (.tail x hc), fun _ => by simpa using hy⟩
  · rw [h]; exact ⟨by simp, hle, hhex, fun _ => by simpa using hx⟩

theorem reg_ne_nil {s : State} (hregs : s.regsWf) (hpos : 1 ≤ s.limbs) (r : Reg) : s.reg r ≠ [] :=
  List.length_pos_iff.mp (by rw [hregs r]; exact hpos)

/-! ### STATUS stays legal (R12 to R15) -/

theorem statusLegal_pack {e l g : Bool} {c : BitVec 4} {r : BitVec 2} (hcause : c.toNat ≤ 4) (hrun : r.toNat ≤ 2)
    (hel : ¬ (e = true ∧ l = true)) (heg : ¬ (e = true ∧ g = true)) (hlg : ¬ (l = true ∧ g = true)) :
    StatusLegal (Status.pack e l g c r) := by
  obtain ⟨h3, hhigh⟩ := reserved_pack e l g c r
  exact ⟨h3, hhigh, by simpa using hcause, by simpa using hrun, by simpa using hel, by simpa using heg,
    by simpa using hlg⟩

theorem cause_code_le (c : Cause) : c.code.toNat ≤ 4 := by cases c <;> decide

theorem run_code_le (r : RunState) : r.code.toNat ≤ 2 := by cases r <;> decide

/-- STATUS = 0, as reset leaves it: no flag, CAUSE = NONE, RUN = READY (R21). -/
theorem statusLegal_zero : StatusLegal 0 :=
  ⟨by decide, by decide, by decide, by decide, by decide, by decide, by decide⟩

theorem flags_resetWith (n : Word) : (State.resetWith n).flags = (false, false, false) :=
  (by decide : (Status.eq 0, Status.lt 0, Status.gt 0) = (false, false, false))

theorem cause_resetWith (n : Word) : (State.resetWith n).cause = Cause.none.code :=
  (by decide : Status.cause 0 = Cause.none.code)

theorem run_resetWith (n : Word) : (State.resetWith n).run = RunState.ready.code :=
  (by decide : Status.run 0 = RunState.ready.code)

section
variable {w : Word} (h : StatusLegal w)
include h

theorem statusLegal_enter (run : RunState) (c : Cause) : StatusLegal (Status.enter w run c) :=
  statusLegal_pack (cause_code_le c) (run_code_le run) h.eq_or_lt h.eq_or_gt h.lt_or_gt

theorem statusLegal_resume : StatusLegal (Status.resume w) :=
  statusLegal_pack h.cause_le (run_code_le .ready) h.eq_or_lt h.eq_or_gt h.lt_or_gt

theorem statusLegal_setFlags (o : Ordering) : StatusLegal (Status.setFlags w o) :=
  statusLegal_pack h.cause_le h.run_le (by cases o <;> decide) (by cases o <;> decide) (by cases o <;> decide)

end

/-! ### What the operations leave unchanged -/

theorem writes_frame {i : Instr} {s u : State} (h : Writes s i u) :
    u.cp = s.cp ∧ u.run = s.run ∧ u.cause = s.cause ∧ sameRecord s u := by
  cases h with
  | values rs n hregs => exact ⟨rfl, rfl, rfl, rfl, rfl, rfl, rfl, rfl⟩
  | flags a b => exact ⟨rfl, run_setFlags s _, cause_setFlags s _, rfl, rfl, rfl, rfl, rfl⟩
  | text a => exact ⟨rfl, rfl, rfl, rfl, rfl, rfl, rfl, rfl⟩

theorem rtext_of_writes {i : Instr} {s u : State} (hi : ∀ a, i ≠ .render a) (h : Writes s i u) :
    u.rtext = s.rtext := by
  cases h with
  | values rs n hregs => rfl
  | flags a b => rfl
  | text a => exact absurd rfl (hi a)

theorem flags_of_writes {i : Instr} {s u : State} (hi : ∀ a b, i ≠ .cmp a b) (h : Writes s i u) :
    u.flags = s.flags := by
  cases h with
  | values rs n hregs => rfl
  | flags a b => exact absurd rfl (hi a b)
  | text a => rfl

theorem exec_cmp (a b : Reg) (s : State) :
    exec (.cmp a b) s = .next ((s.setFlags (compareValues (s.reg a) (s.reg b))).advance 1) := rfl

theorem exec_render (a : Reg) (s : State) :
    exec (.render a) s = .next ((s.setText (render (s.reg a))).advance 1) := rfl

theorem resume_record (s : State) : s.resume.cause = s.cause ∧ s.resume.fcmd = s.fcmd ∧ s.resume.fcp = s.fcp := by
  unfold State.resume
  split
  · exact ⟨cause_resume_status s.status, rfl, rfl⟩
  · exact ⟨rfl, rfl, rfl⟩

theorem step_host {s : State} {a : HostAction} {rest : List Turn} (h : s.schedule = .host a :: rest) :
    step s = hostStep a { s with schedule := rest } := by
  simp only [step, h]

/-- CP does not wrap: a stream has at most 2^32 - 1 words (R11). -/
theorem toNat_cp_advance {s : State} {n : Nat} (hstream : Memory.wf s.stream = true)
    (hn : s.cp.toNat + n ≤ s.stream.length) : (s.advance n).cp.toNat = s.cp.toNat + n := by
  have hlen : s.stream.length ≤ 2 ^ 32 - 1 := (wf_iff s.stream).mp hstream
  rw [cp_advance, BitVec.toNat_add, BitVec.toNat_ofNat, Nat.mod_eq_of_lt (a := n) (by omega),
    Nat.mod_eq_of_lt (by omega)]

/-! ### The invariant, operation by operation -/

theorem inv_resetWith {n : Word} (hn : n ≠ 0) : Inv (State.resetWith n) where
  limbs_pos := Nat.pos_of_ne_zero fun h => hn (BitVec.eq_of_toNat_eq h)
  regs r := by rw [reg_resetWith]; exact length_zeros _
  stream := reset_stream_wf n
  cp_le := le_rfl
  status := statusLegal_zero
  text := .inl rfl
  clean _ := ⟨run_resetWith n, rfl, rfl⟩
  record h := absurd (cause_resetWith n) h
  stopped h := absurd (run_resetWith n) h
  trapped h := absurd ((run_resetWith n).symm.trans h) (by decide)
  halted h := absurd ((run_resetWith n).symm.trans h) (by decide)

section
variable {s : State} (h : Inv s)
include h

theorem inv_schedule (rest : List Turn) : Inv { s with schedule := rest } := { h with }

theorem inv_hostReset : Inv s.hostReset :=
  have hcfg : s.cfg ≠ 0 := fun h0 => absurd h.limbs_pos (by rw [State.limbs, h0]; decide)
  { inv_resetWith hcfg with }

theorem inv_supply {ws : List Word} (hws : Memory.wf (s.stream ++ ws) = true) :
    Inv { s with stream := s.stream ++ ws } :=
  { h with
    stream := hws
    cp_le := h.cp_le.trans (by simp)
    record := fun hc => by
      have hword := h.record hc
      rw [List.getElem?_append_left (List.getElem?_eq_some_iff.mp hword).1]
      exact hword }

/-- While TRAPPED, FCP is CP and there is a word at it to skip (R92). -/
theorem trapped_cp (hrun : s.run = RunState.trapped.code) : s.fcp = s.cp ∧ s.cp.toNat + 1 ≤ s.stream.length := by
  have hfcp : s.fcp = s.cp := h.stopped (by rw [hrun]; decide)
  have hword := h.record (by rw [h.trapped hrun]; decide)
  rw [hfcp] at hword
  exact ⟨hfcp, (List.getElem?_eq_some_iff.mp hword).1⟩

/-- RESUME makes the block READY and moves CP past the trapped command's one word. -/
theorem resume_eq_advance (hrun : s.run = RunState.trapped.code) :
    s.resume = ({ s with status := Status.resume s.status } : State).advance 1 := by
  obtain ⟨hfcp, -⟩ := trapped_cp h hrun
  rw [State.resume, if_pos hrun, hfcp]
  rfl

theorem inv_advance {n : Nat} (hrun : s.run = RunState.ready.code) (hn : s.cp.toNat + n ≤ s.stream.length) :
    Inv (s.advance n) :=
  { h with
    cp_le := (toNat_cp_advance h.stream hn).trans_le hn
    stopped := fun hne => absurd hrun hne }

theorem inv_readied (hrun : s.run = RunState.trapped.code) : Inv { s with status := Status.resume s.status } := by
  have hready : ({ s with status := Status.resume s.status } : State).run = RunState.ready.code :=
    run_resume_status s.status
  have hcause : ({ s with status := Status.resume s.status } : State).cause = Cause.divByZero.code :=
    (cause_resume_status s.status).trans (h.trapped hrun)
  exact { h with
    status := statusLegal_resume h.status
    clean := fun hc => absurd (hcause.symm.trans hc) (by decide)
    record := fun _ => h.record (by rw [h.trapped hrun]; decide)
    stopped := fun hne => absurd hready hne
    trapped := fun _ => hcause
    halted := fun hh => absurd (hready.symm.trans hh) (by decide) }

theorem inv_resume : Inv s.resume := by
  by_cases hrun : s.run = RunState.trapped.code
  · obtain ⟨-, hcp⟩ := trapped_cp h hrun
    rw [resume_eq_advance h hrun]
    exact inv_advance (inv_readied h hrun) (run_resume_status s.status) hcp
  · rw [State.resume, if_neg hrun]
    exact h

theorem inv_enter {run : RunState} {cause : Cause} {w : Word} (hentry : entersAs run cause)
    (hword : s.stream[s.cp.toNat]? = some w) : Inv (s.enter run cause w) := by
  have hcause : cause ≠ .none := by
    obtain ⟨-, rfl⟩ | ⟨-, hne, -⟩ := hentry
    · decide
    · exact hne
  exact { h with
    status := statusLegal_enter h.status run cause
    clean := fun hc => by
      rw [cause_enter, cause_code_eq] at hc
      exact absurd hc hcause
    record := fun _ => hword
    stopped := fun _ => rfl
    trapped := fun hr => by
      rw [run_enter, run_code_eq] at hr
      rw [cause_enter, cause_code_eq]
      obtain ⟨-, hc⟩ | ⟨hrun, -⟩ := hentry
      · exact hc
      · rw [hrun] at hr; cases hr
    halted := fun hr => by
      rw [run_enter, run_code_eq] at hr
      rw [cause_enter, ne_eq, cause_code_eq]
      obtain ⟨hrun, -⟩ | ⟨-, -, hc⟩ := hentry
      · rw [hrun] at hr; cases hr
      · exact hc }

theorem inv_setFlags (o : Ordering) : Inv (s.setFlags o) :=
  { h with
    status := statusLegal_setFlags h.status o
    clean := by simpa using h.clean
    record := by simpa using h.record
    stopped := by simpa using h.stopped
    trapped := by simpa using h.trapped
    halted := by simpa using h.halted }

theorem textLegal_render (a : Reg) : textLegal s.limbs (render (s.reg a)) := by
  have hcanon := render_canonical (reg_ne_nil h.regs h.limbs_pos a)
  rw [h.regs a] at hcanon
  exact .inr hcanon

theorem inv_writes {i : Instr} {u : State} (hwrites : Writes s i u) : Inv u := by
  cases hwrites with
  | values rs n hregs => exact { h with regs := hregs h.regs }
  | flags a b => exact inv_setFlags h _
  | text a => exact { h with text := textLegal_render h a }

theorem inv_blockStep {t : State} (hstep : blockStep s = .next t) : Inv t := by
  obtain rfl | ⟨run, cause, w, -, hword, hentry, rfl⟩ | ⟨i, u, hrun, hlen, hwrites, rfl⟩ :=
    blockStep_next_writes hstep
  · exact h
  · exact inv_enter h hentry hword
  · obtain ⟨hcp, hready, -, -, -, -, hstream, -⟩ := writes_frame hwrites
    exact inv_advance (inv_writes h hwrites) (hready.trans hrun) (by rw [hcp, hstream]; exact hlen)

theorem inv_hostStep {a : HostAction} {t : State} (hstep : hostStep a s = .next t) : Inv t := by
  obtain ⟨ws, -, hws, rfl⟩ | ⟨r, -, rfl⟩ | ⟨-, rfl⟩ | ⟨-, rfl⟩ := hostStep_next hstep
  · exact inv_supply h hws
  · exact h
  · exact inv_resume h
  · exact inv_hostReset h

theorem inv_step {t : State} (hstep : step s = .next t) : Inv t := by
  obtain ⟨rest, -, hblock⟩ | ⟨a, rest, -, hhost⟩ := step_next hstep
  · exact inv_blockStep (inv_schedule h rest) hblock
  · exact inv_hostStep (inv_schedule h rest) hhost

end

/-! ### The trap record and CP, turn by turn -/

/-- From s to t, CAUSE, FCMD and FCP are unchanged, or a READY block has entered a trap or halt at CP that records the
stream's word there (R14, R16). -/
def recordKeptOrEntered (s t : State) : Prop :=
  (t.cause = s.cause ∧ t.fcmd = s.fcmd ∧ t.fcp = s.fcp) ∨
    (s.run = RunState.ready.code ∧ t.run ≠ RunState.ready.code ∧ t.cause ≠ Cause.none.code ∧
      t.fcp = s.cp ∧ t.cp = s.cp ∧ s.stream[s.cp.toNat]? = some t.fcmd)

theorem entersAs_ne {run : RunState} {cause : Cause} (h : entersAs run cause) : run ≠ .ready ∧ cause ≠ .none := by
  obtain ⟨rfl, rfl⟩ | ⟨rfl, hnone, -⟩ := h
  · decide
  · exact ⟨by decide, hnone⟩

theorem blockStep_record {s t : State} (h : blockStep s = .next t) : recordKeptOrEntered s t := by
  obtain rfl | ⟨run, cause, w, hready, hword, hentry, rfl⟩ | ⟨i, u, -, -, hwrites, rfl⟩ := blockStep_next_writes h
  · exact .inl ⟨rfl, rfl, rfl⟩
  · obtain ⟨hrun, hcause⟩ := entersAs_ne hentry
    exact .inr ⟨hready, by simpa using hrun, by simpa using hcause, rfl, rfl, hword⟩
  · obtain ⟨-, -, hcause, hfcmd, hfcp, -⟩ := writes_frame hwrites
    exact .inl ⟨hcause, hfcmd, hfcp⟩

theorem hostStep_record {a : HostAction} {s t : State} (ha : a ≠ .reset) (h : hostStep a s = .next t) :
    recordKeptOrEntered s t := by
  obtain ⟨ws, -, -, rfl⟩ | ⟨r, -, rfl⟩ | ⟨-, rfl⟩ | ⟨rfl, -⟩ := hostStep_next h
  · exact .inl ⟨rfl, rfl, rfl⟩
  · exact .inl ⟨rfl, rfl, rfl⟩
  · exact .inl (resume_record s)
  · exact absurd rfl ha

/-- From s to t, CP moves forward by at most the 3 words of the longest command, within the stream (R10, R46). -/
def cpMovesForward (s t : State) : Prop :=
  s.cp.toNat ≤ t.cp.toNat ∧ t.cp.toNat ≤ s.cp.toNat + 3 ∧ t.cp.toNat ≤ t.stream.length

theorem cpMovesForward_of_cp_eq {s t : State} (h : t.cp = s.cp) (ht : Inv t) : cpMovesForward s t := by
  have := ht.cp_le
  rw [cpMovesForward, h] at *
  omega

theorem cpMovesForward_advance {s u : State} {n : Nat} (hcp : u.cp = s.cp) (hu : Memory.wf u.stream = true)
    (hn : u.cp.toNat + n ≤ u.stream.length) (hle : n ≤ 3) : cpMovesForward s (u.advance n) := by
  rw [cpMovesForward, toNat_cp_advance hu hn, stream_advance, ← hcp]
  omega

theorem blockStep_cp {s t : State} (hs : Inv s) (h : blockStep s = .next t) : cpMovesForward s t := by
  have ht : Inv t := inv_blockStep hs h
  obtain rfl | ⟨run, cause, w, -, -, -, rfl⟩ | ⟨i, u, -, hlen, hwrites, rfl⟩ := blockStep_next_writes h
  · exact cpMovesForward_of_cp_eq rfl ht
  · exact cpMovesForward_of_cp_eq rfl ht
  · obtain ⟨hcp, -, -, -, -, -, hstream, -⟩ := writes_frame hwrites
    exact cpMovesForward_advance hcp (inv_writes hs hwrites).stream (by rw [hcp, hstream]; exact hlen)
      (words_le_three i.opcode)

theorem resume_cp {s : State} (hs : Inv s) : cpMovesForward s s.resume := by
  by_cases hrun : s.run = RunState.trapped.code
  · obtain ⟨-, hcp⟩ := trapped_cp hs hrun
    rw [resume_eq_advance hs hrun]
    exact cpMovesForward_advance rfl hs.stream hcp (by decide)
  · rw [State.resume, if_neg hrun]
    exact cpMovesForward_of_cp_eq rfl hs

theorem hostStep_cp {a : HostAction} {s t : State} (hs : Inv s) (ha : a ≠ .reset) (h : hostStep a s = .next t) :
    cpMovesForward s t := by
  have ht : Inv t := inv_hostStep hs h
  obtain ⟨ws, -, -, rfl⟩ | ⟨r, -, rfl⟩ | ⟨-, rfl⟩ | ⟨rfl, -⟩ := hostStep_next h
  · exact cpMovesForward_of_cp_eq rfl ht
  · exact cpMovesForward_of_cp_eq rfl ht
  · exact resume_cp hs
  · exact absurd rfl ha

theorem ne_reset_of_head {s : State} {a : HostAction} {rest : List Turn} (hs : s.schedule = .host a :: rest)
    (h : s.schedule.head? ≠ some (.host .reset)) : a ≠ .reset := by
  rintro rfl
  exact h (by rw [hs]; rfl)

end Sys2Proof.Machine

namespace Sys2Proof

open Machine

/-- Settles O46: each operation a turn is made of keeps the invariant, so the block's turn and the host's do. -/
theorem everyStepKeepsTheInvariant : Obligations.EveryStepKeepsTheInvariant := by
  unfold Obligations.EveryStepKeepsTheInvariant
  intro s t hs hstep
  exact inv_step hs hstep

/-- Settles O38: of what a command can write only RENDER's part is the text, and that part is a canonical numeral
(R19). -/
theorem textWrittenOnlyByRender : Obligations.TextWrittenOnlyByRender := by
  unfold Obligations.TextWrittenOnlyByRender
  refine ⟨fun i s t hi hexec => ?_, fun a s t hregs hpos hexec => ?_, fun s => ⟨rfl, rfl⟩⟩
  · obtain ⟨run, cause, -, rfl⟩ | ⟨u, hwrites, rfl⟩ := exec_next_writes hexec
    · rfl
    · exact (rtext_advance u _).trans (rtext_of_writes hi hwrites)
  · obtain ⟨hone, hmax, hhex, -⟩ := render_canonical (reg_ne_nil hregs hpos a)
    rw [hregs a] at hmax
    rw [exec_render] at hexec
    cases hexec
    exact ⟨rfl, hone, hmax, hhex⟩

/-- Settles O39: the case analysis of exec over all commands. -/
theorem everyCommandCompletesOrStopsCleanly : Obligations.EveryCommandCompletesOrStopsCleanly := by
  unfold Obligations.EveryCommandCompletesOrStopsCleanly
  intro i s
  exact exec_completesOrStops i s

/-- Settles O49: CMP writes the flags of one ordering; of what another command can write the flags are no part
(R13). -/
theorem flagsWrittenOnlyByCmp : Obligations.FlagsWrittenOnlyByCmp := by
  unfold Obligations.FlagsWrittenOnlyByCmp
  refine ⟨fun a b s t hexec => ?_, fun i s t hi hexec => ?_, flags_enter, flags_resetWith⟩
  · rw [exec_cmp] at hexec
    cases hexec
    rw [flags_advance, flags_setFlags]
    cases compareValues (s.reg a) (s.reg b) with
    | eq => exact .inl rfl
    | lt => exact .inr (.inl rfl)
    | gt => exact .inr (.inr rfl)
  · obtain ⟨run, cause, -, rfl⟩ | ⟨u, hwrites, rfl⟩ := exec_next_writes hexec
    · exact flags_enter s run cause i.commandWord
    · exact (flags_advance u _).trans (flags_of_writes hi hwrites)

/-- Settles O50: the block's turn enters at the command it decoded at CP, whose word is the stream's; no host action
but RESET touches the record. -/
theorem recordNamesTheStoppedCommand : Obligations.RecordNamesTheStoppedCommand := by
  unfold Obligations.RecordNamesTheStoppedCommand
  intro s t hreset hstep
  obtain ⟨rest, -, hblock⟩ | ⟨a, rest, hturn, hhost⟩ := step_next hstep
  · exact (blockStep_record hblock :)
  · exact (hostStep_record (ne_reset_of_head hturn hreset) hhost :)

/-- Settles O55: a decoded command's words, and the word RESUME skips, are within the stream, whose length is below
2^32. -/
theorem commandPointerNeverGoesBack : Obligations.CommandPointerNeverGoesBack := by
  unfold Obligations.CommandPointerNeverGoesBack
  intro s t hs hreset hstep
  obtain ⟨rest, -, hblock⟩ | ⟨a, rest, hturn, hhost⟩ := step_next hstep
  · exact (blockStep_cp (inv_schedule hs rest) hblock :)
  · exact (hostStep_cp (inv_schedule hs rest) (ne_reset_of_head hturn hreset) hhost :)

/-- Settles O43: RESET and power-on are the same literal state but for the model's own fields (R21, R103). -/
theorem resetValuesFromAnyState : Obligations.ResetValuesFromAnyState := by
  unfold Obligations.ResetValuesFromAnyState
  refine ⟨fun s => ⟨reg_hostReset s, ?_⟩, fun n => ⟨reg_resetWith n, ?_⟩, fun s rest hturn => step_host hturn⟩
  · exact ⟨rfl, rfl, rfl, rfl, rfl, rfl, rfl, rfl, flags_resetWith s.cfg, cause_resetWith s.cfg, run_resetWith s.cfg⟩
  · exact ⟨rfl, rfl, rfl, rfl, rfl, rfl, rfl, rfl⟩

/-- Settles O44: the guard of SUPPLY is the bound on the stream's length (R11, R39). -/
theorem supplyAppendsOrIsRefused : Obligations.SupplyAppendsOrIsRefused := by
  unfold Obligations.SupplyAppendsOrIsRefused
  intro s ws rest hturn
  have hsupply : step s = hostSupply ws { s with schedule := rest } := step_host hturn
  have hguard : Memory.wf (s.stream ++ ws) = true ↔ s.stream.length + ws.length ≤ 2 ^ 32 - 1 := by
    rw [wf_iff, List.length_append]
  constructor
  · intro hfits
    rw [hsupply, hostSupply, if_pos (hguard.mpr hfits)]
  · intro hlong
    rw [hsupply, hostSupply, if_neg (mt hguard.mp (Nat.not_le.mpr hlong))]

/-- Settles O47: State.reset is the power-on state of N = 8 (log 1). -/
theorem resetMeetsTheInvariant : Obligations.ResetMeetsTheInvariant := by
  unfold Obligations.ResetMeetsTheInvariant
  exact ⟨fun n hn => inv_resetWith hn, inv_resetWith (by decide)⟩

end Sys2Proof
end

section
/-! PROOFS of the family 20_memory.md. The byte boundary as a number (spec/20_memory.md R24), the stream's words under
every turn (R39), and the draws as a side effect of XFER alone (R33). -/

namespace Sys2Proof

/-! ### A word from its bytes (R24) -/

/-- Setting bits above the width of b adds them. -/
theorem or_shiftLeft_eq_add {b i : Nat} (h : b < 2 ^ i) (a : Nat) : b ||| a <<< i = b + 2 ^ i * a := by
  rw [Nat.or_comm, ← Nat.shiftLeft_add_eq_or_of_lt h, Nat.shiftLeft_eq, Nat.mul_comm, Nat.add_comm]

/-- A byte moved up by at most three bytes loses no bit of a word. -/
theorem toNat_byte_shiftLeft (b : Byte) {i : Nat} (h : i ≤ 24) :
    (b.setWidth 32 <<< i).toNat = b.toNat <<< i := by
  have hlt : b.toNat <<< i < 2 ^ 32 :=
    calc b.toNat <<< i = b.toNat * 2 ^ i := Nat.shiftLeft_eq _ _
      _ < 2 ^ 8 * 2 ^ i := Nat.mul_lt_mul_of_pos_right b.isLt (Nat.two_pow_pos i)
      _ = 2 ^ (8 + i) := (Nat.pow_add 2 8 i).symm
      _ ≤ 2 ^ 32 := Nat.pow_le_pow_right (by decide) (by omega)
  rw [BitVec.toNat_shiftLeft, BitVec.toNat_setWidth_of_le (by decide), Nat.mod_eq_of_lt hlt]

theorem toNat_wordOfBytes (b0 b1 b2 b3 : Byte) : (wordOfBytes b0 b1 b2 b3).toNat =
    b0.toNat + 2 ^ 8 * b1.toNat + 2 ^ 16 * b2.toNat + 2 ^ 24 * b3.toNat := by
  have h0 := b0.isLt
  have h1 := b1.isLt
  have h2 := b2.isLt
  simp only [wordOfBytes, BitVec.toNat_or, toNat_byte_shiftLeft _ (show 8 ≤ 24 by decide),
    toNat_byte_shiftLeft _ (show 16 ≤ 24 by decide), toNat_byte_shiftLeft _ (show 24 ≤ 24 by decide),
    BitVec.toNat_setWidth_of_le (show 8 ≤ 32 by decide)]
  rw [or_shiftLeft_eq_add h0, or_shiftLeft_eq_add (i := 16) (by omega), or_shiftLeft_eq_add (i := 24) (by omega)]

/-- The bytes of a word, byte 0 first. -/
theorem wordOfBytes_extractLsb' (w : Word) :
    wordOfBytes (w.extractLsb' 0 8) (w.extractLsb' 8 8) (w.extractLsb' 16 8) (w.extractLsb' 24 8) = w := by
  apply BitVec.eq_of_toNat_eq
  have hw := w.isLt
  simp only [toNat_wordOfBytes, BitVec.extractLsb'_toNat, Nat.shiftRight_eq_div_pow]
  omega

end Sys2Proof

namespace Sys2Proof.Machine

/-! ### The stream under every turn (R39) -/

@[simp] theorem stream_resume (s : State) : s.resume.stream = s.stream := by
  unfold State.resume
  split <;> rfl

/-- The block only reads the stream. -/
theorem blockStep_keeps_stream {s t : State} (h : blockStep s = .next t) : t.stream = s.stream := by
  obtain rfl | ⟨run, cause, w, -, -, -, rfl⟩ | ⟨i, u, -, -, hwrites, rfl⟩ := blockStep_next_writes h
  · rfl
  · exact stream_enter s run cause w
  · obtain ⟨-, -, -, -, -, -, hstream, -⟩ := writes_frame hwrites
    exact (stream_advance u _).trans hstream

theorem hostStep_extends_stream {a : HostAction} {s t : State} (ha : a ≠ .reset) (h : hostStep a s = .next t) :
    s.stream <+: t.stream := by
  obtain ⟨ws, -, -, rfl⟩ | ⟨r, -, rfl⟩ | ⟨-, rfl⟩ | ⟨rfl, -⟩ := hostStep_next h
  · exact List.prefix_append s.stream ws
  · exact List.prefix_rfl
  · exact (stream_resume s).symm ▸ List.prefix_rfl
  · exact absurd rfl ha

/-! ### The draw counter (R33, R56, log 2) -/

/-- The meaning f answers a next state from every state, takes no draw, and does the same whatever the draw counter. -/
def drawFree (f : State → Result) : Prop :=
  ∀ (s : State) (n : Nat), ∃ t, f s = .next t ∧ t.draws = s.draws ∧
    f { s with draws := n } = .next { t with draws := n }

/-- An update of the state that neither reads nor writes the counter. -/
theorem drawFree_next {f : State → State} (hkeep : ∀ s, (f s).draws = s.draws)
    (hread : ∀ s n, f { s with draws := n } = { f s with draws := n }) : drawFree fun s => .next (f s) :=
  fun s n => ⟨f s, rfl, hkeep s, congrArg _ (hread s n)⟩

/-- A choice made by a guard that does not read the counter. -/
theorem drawFree_ite {c : State → Prop} [∀ s, Decidable (c s)] {f g : State → Result}
    (hc : ∀ s n, c { s with draws := n } ↔ c s) (hf : drawFree f) (hg : drawFree g) :
    drawFree fun s => if c s then f s else g s := by
  intro s n
  by_cases h : c s
  · simpa only [hc, if_pos h] using hf s n
  · simpa only [hc, if_neg h] using hg s n

section
variable (i : Instr)

theorem drawFree_raiseTrap (c : Cause) : drawFree (raiseTrap c i) := drawFree_next (fun _ => rfl) fun _ _ => rfl

theorem drawFree_raiseHalt (c : Cause) : drawFree (raiseHalt c i) := drawFree_next (fun _ => rfl) fun _ _ => rfl

theorem drawFree_widenU (d : Reg) {S : Nat} (lit : BitVec S) : drawFree (widenU i d lit) :=
  drawFree_ite (fun _ _ => .rfl) (drawFree_raiseHalt i _) (drawFree_next (fun _ => rfl) fun _ _ => rfl)

theorem drawFree_widenS (d : Reg) {S : Nat} (lit : BitVec S) : drawFree (widenS i d lit) :=
  drawFree_ite (fun _ _ => .rfl) (drawFree_raiseHalt i _)
    (drawFree_ite (fun _ _ => .rfl) (drawFree_raiseHalt i _) (drawFree_next (fun _ => rfl) fun _ _ => rfl))

/-- The shape of DIVU, REMU and DIVREM: a zero divisor traps (R78 to R80). -/
theorem drawFree_division (b : Reg) {f : State → Result} (hf : drawFree f) :
    drawFree fun s => if val (s.reg b) = 0 then raiseTrap .divByZero i s else f s :=
  drawFree_ite (fun _ _ => .rfl) (drawFree_raiseTrap i _) hf

end

/-- XFER alone reads the draw and counts it. -/
theorem drawFree_exec {i : Instr} (hi : ∀ d a, i ≠ .xfer d a) : drawFree (exec i) := by
  cases i with
  | xfer d a => exact absurd rfl (hi d a)
  | ldu8 d lit => exact drawFree_widenU _ d lit
  | ldu16 d lit => exact drawFree_widenU _ d lit
  | ldu32 d lit => exact drawFree_widenU _ d lit
  | ldu64 d lit => exact drawFree_widenU _ d lit
  | lds8 d lit => exact drawFree_widenS _ d lit
  | lds16 d lit => exact drawFree_widenS _ d lit
  | lds32 d lit => exact drawFree_widenS _ d lit
  | lds64 d lit => exact drawFree_widenS _ d lit
  | divu d a b => exact drawFree_division _ b (drawFree_next (fun _ => rfl) fun _ _ => rfl)
  | remu d a b => exact drawFree_division _ b (drawFree_next (fun _ => rfl) fun _ _ => rfl)
  | divrem d c a b =>
    exact drawFree_ite (fun _ _ => .rfl) (drawFree_raiseHalt _ _)
      (drawFree_division _ b (drawFree_next (fun _ => rfl) fun _ _ => rfl))
  | zero | mov | add | inc | sub | dec | neg | mul | cmp | render =>
    exact drawFree_next (fun _ => rfl) fun _ _ => rfl

end Sys2Proof.Machine

namespace Sys2Proof

open Machine

/-- Settles O6: the four bytes do not overlap, so the word is their sum; and a word is the sum of its base-256 digits
(R24). -/
theorem byteTransferIsLittleEndian : Obligations.ByteTransferIsLittleEndian := by
  unfold Obligations.ByteTransferIsLittleEndian
  refine ⟨toNat_wordOfBytes, fun ws => ?_⟩
  induction ws with
  | nil => rfl
  | cons w ws ih => exact congrArg₂ List.cons (wordOfBytes_extractLsb' w) ih

/-- Settles O52: the block only reads the stream, SUPPLY appends, READ and RESUME leave it (R39). -/
theorem streamIsAppendOnly : Obligations.StreamIsAppendOnly := by
  unfold Obligations.StreamIsAppendOnly
  intro s t hreset hstep
  obtain ⟨rest, -, hblock⟩ | ⟨a, rest, hturn, hhost⟩ := step_next hstep
  · have hstream : t.stream = s.stream := (blockStep_keeps_stream hblock :)
    exact hstream ▸ List.prefix_rfl
  · exact (hostStep_extends_stream (ne_reset_of_head hturn hreset) hhost :)

/-- Settles O53: every command but XFER is made of updates and guards that do not touch the draw counter (R33). -/
theorem onlyXferDraws : Obligations.OnlyXferDraws := by
  unfold Obligations.OnlyXferDraws
  intro i s n hi
  exact drawFree_exec hi s n

/-- Settles O45: a READ's host step is the identity, and no register READ names is the schedule (R33, R105). -/
theorem readHasNoSideEffect : Obligations.ReadHasNoSideEffect := by
  unfold Obligations.ReadHasNoSideEffect
  intro s r rest hturn
  exact ⟨step_host hturn, fun q => by cases q <;> rfl⟩

end Sys2Proof
end

section
/-! PROOFS of the family 30_encoding.md. The fields of a command word and its literal words, the decoder and the
encoder as inverses of each other (R41 to R48), what the block does with what it finds at CP (R50), and the
assembler's pseudo-instructions and literals (R51, R52). -/

namespace Sys2Proof

open Machine

/-! ### Literal words (R25, R45) -/

/-- The literal of two words as a number. -/
theorem toNat_append_words (lo hi : Word) : (hi ++ lo : BitVec 64).toNat = lo.toNat + 2 ^ 32 * hi.toNat := by
  rw [BitVec.toNat_append, Nat.or_comm, or_shiftLeft_eq_add lo.isLt]

theorem ushiftRight_eq_zero_iff {w : Nat} (x : BitVec w) (S : Nat) : x >>> S = 0 ↔ x.toNat < 2 ^ S := by
  rw [← BitVec.toNat_inj, BitVec.toNat_ushiftRight, Nat.shiftRight_eq_div_pow, BitVec.ofNat_eq_ofNat,
    BitVec.toNat_ofNat, Nat.zero_mod, Nat.div_eq_zero_iff_lt (Nat.two_pow_pos S)]

/-- The literal words as numbers, low word first (R25). -/
theorem map_toNat_literalWords {S : Nat} (hS : S ≤ 64) (lit : BitVec S) :
    (literalWords lit).map BitVec.toNat = [lit.toNat % 2 ^ 32, lit.toNat / 2 ^ 32] := by
  obtain ⟨lo, hi, hwords, happend⟩ := literalWords_append lit
  have hlo := lo.isLt
  have hsum : lo.toNat + 2 ^ 32 * hi.toNat = lit.toNat := by
    rw [← toNat_append_words, happend, BitVec.toNat_setWidth_of_le hS]
  rw [hwords, ← hsum]
  simp only [List.map_cons, List.map_nil, List.cons.injEq, and_true]
  omega

/-- Reading a literal back: below its width nothing is lost by the extension to 64 bits. -/
theorem withLiteral_literalWords {S : Nat} (hS : S ≤ 64) (mk : BitVec S → Instr) (lit : BitVec S)
    (more : List Word) : withLiteral S mk (literalWords lit ++ more) = .instr (mk lit) := by
  obtain ⟨lo, hi, hwords, happend⟩ := literalWords_append lit
  have hfits : (lit.setWidth 64) >>> S = 0 := by
    rw [ushiftRight_eq_zero_iff, BitVec.toNat_setWidth_of_le hS]
    exact lit.isLt
  have hback : (lit.setWidth 64).setWidth S = lit := by
    rw [BitVec.setWidth_setWidth (by omega), BitVec.setWidth_eq]
  simp [hwords, withLiteral, happend, hfits, hback]

/-- A literal that fits is read from its own two words. -/
theorem withLiteral_instr_words {S : Nat} {mk : BitVec S → Instr} {rest : List Word} {i : Instr}
    (h : withLiteral S mk rest = .instr i) : ∃ lit more, i = mk lit ∧ rest = literalWords lit ++ more := by
  match rest, h with
  | lo :: hi :: more, h =>
    simp only [withLiteral, ne_eq, ite_not] at h
    split at h
    · next hfits =>
      cases h
      have hback : ((hi ++ lo : BitVec 64).setWidth S).setWidth 64 = hi ++ lo := by
        apply BitVec.eq_of_toNat_eq
        rw [BitVec.toNat_setWidth, BitVec.toNat_setWidth,
          Nat.mod_eq_of_lt ((ushiftRight_eq_zero_iff _ S).mp hfits), Nat.mod_eq_of_lt (BitVec.isLt _)]
      exact ⟨_, more, rfl, by rw [literalWords, hback, low_of_append, high_of_append]; rfl⟩
    · cases h

/-- The literal rule of R48: a literal with a bit above its width. -/
theorem withLiteral_illegal_iff (S : Nat) (mk : BitVec S → Instr) (rest : List Word) :
    (∃ why, withLiteral S mk rest = .illegal why) ↔
      ∃ lo hi tl, rest = lo :: hi :: tl ∧ 2 ^ S ≤ lo.toNat + 2 ^ 32 * hi.toNat := by
  match rest with
  | [] => simp [withLiteral]
  | [_] => simp [withLiteral]
  | lo :: hi :: tl =>
    have hwide : (hi ++ lo : BitVec 64) >>> S ≠ 0 ↔ 2 ^ S ≤ lo.toNat + 2 ^ 32 * hi.toNat := by
      rw [ne_eq, ushiftRight_eq_zero_iff, toNat_append_words, Nat.not_lt]
    simp only [withLiteral, hwide]
    split
    · next h => exact ⟨fun _ => ⟨lo, hi, tl, rfl, h⟩, fun _ => ⟨_, rfl⟩⟩
    · next h => simpa using h

theorem withLiteral_wait {S : Nat} {mk : BitVec S → Instr} {rest : List Word} (h : rest.length < 2) :
    withLiteral S mk rest = .wait := by
  match rest with
  | [] => rfl
  | [_] => rfl

/-! ### A word is its fields (R41) -/

theorem regOfBits_inj {b c : BitVec 4} : regOfBits b = regOfBits c ↔ b = c :=
  ⟨fun h => by rw [← bitsOfReg_regOfBits b, h, bitsOfReg_regOfBits], congrArg regOfBits⟩

theorem toNat_opField (w : Word) : (opField w).toNat = w.toNat % 256 := by
  simp [opField]

theorem toNat_rsvField (w : Word) : (rsvField w).toNat = w.toNat / 2 ^ 24 % 256 := by
  simp [rsvField, Nat.shiftRight_eq_div_pow]

theorem val_dField (w : Word) : (dField w).val = w.toNat / 2 ^ 8 % 16 := by
  simp [dField, regOfBits, Nat.shiftRight_eq_div_pow]

theorem val_aField (w : Word) : (aField w).val = w.toNat / 2 ^ 12 % 16 := by
  simp [aField, regOfBits, Nat.shiftRight_eq_div_pow]

theorem val_bField (w : Word) : (bField w).val = w.toNat / 2 ^ 16 % 16 := by
  simp [bField, regOfBits, Nat.shiftRight_eq_div_pow]

theorem val_cField (w : Word) : (cField w).val = w.toNat / 2 ^ 20 % 16 := by
  simp [cField, regOfBits, Nat.shiftRight_eq_div_pow]

theorem dField_eq_cField_iff (w : Word) : dField w = cField w ↔ w.toNat / 2 ^ 8 % 16 = w.toNat / 2 ^ 20 % 16 := by
  rw [Fin.ext_iff, val_dField, val_cField]

/-- The six fields of R41 leave no bit of a word out. -/
theorem word_eq_iff_fields (v w : Word) : v = w ↔ opField v = opField w ∧ rsvField v = rsvField w ∧
    dField v = dField w ∧ aField v = aField w ∧ bField v = bField w ∧ cField v = cField w := by
  have hv := v.isLt
  have hw := w.isLt
  simp only [← BitVec.toNat_inj, Fin.ext_iff, toNat_opField, toNat_rsvField, val_dField, val_aField, val_bField,
    val_cField]
  omega

/-- A command word as the sum of its fields (R41). -/
theorem toNat_packWord (op : BitVec 8) (d a b c : Reg) : (packWord op d a b c).toNat =
    op.toNat + 256 * d.val + 4096 * a.val + 65536 * b.val + 1048576 * c.val := by
  have hlt := (packWord op d a b c).isLt
  have hop := toNat_opField (packWord op d a b c)
  have hrsv := toNat_rsvField (packWord op d a b c)
  have hd := val_dField (packWord op d a b c)
  have ha := val_aField (packWord op d a b c)
  have hb := val_bField (packWord op d a b c)
  have hc := val_cField (packWord op d a b c)
  rw [opField_packWord] at hop
  rw [rsvField_packWord, BitVec.ofNat_eq_ofNat, BitVec.toNat_ofNat, Nat.zero_mod] at hrsv
  rw [dField_packWord] at hd
  rw [aField_packWord] at ha
  rw [bField_packWord] at hb
  rw [cField_packWord] at hc
  omega

/-! ### Encoding, then decoding (R43, R47) -/

/-- The field layout of R41 and R43 for every command. -/
theorem fieldLayout (i : Instr) : Laws.FieldLayout.Statement i := by
  cases i with
  | zero d => exact Laws.FieldLayout.zero d
  | mov d a => exact Laws.FieldLayout.mov d a
  | xfer d a => exact Laws.FieldLayout.xfer d a
  | ldu8 d lit => exact Laws.FieldLayout.ldu8 d lit
  | ldu16 d lit => exact Laws.FieldLayout.ldu16 d lit
  | ldu32 d lit => exact Laws.FieldLayout.ldu32 d lit
  | ldu64 d lit => exact Laws.FieldLayout.ldu64 d lit
  | lds8 d lit => exact Laws.FieldLayout.lds8 d lit
  | lds16 d lit => exact Laws.FieldLayout.lds16 d lit
  | lds32 d lit => exact Laws.FieldLayout.lds32 d lit
  | lds64 d lit => exact Laws.FieldLayout.lds64 d lit
  | add d a b => exact Laws.FieldLayout.add d a b
  | inc d a => exact Laws.FieldLayout.inc d a
  | sub d a b => exact Laws.FieldLayout.sub d a b
  | dec d a => exact Laws.FieldLayout.dec d a
  | neg d a => exact Laws.FieldLayout.neg d a
  | mul d a b => exact Laws.FieldLayout.mul d a b
  | divu d a b => exact Laws.FieldLayout.divu d a b
  | remu d a b => exact Laws.FieldLayout.remu d a b
  | divrem d c a b => exact Laws.FieldLayout.divrem d c a b
  | cmp a b => exact Laws.FieldLayout.cmp a b
  | render a => exact Laws.FieldLayout.render a

/-- The operands come back from the fields of the packed word and from the literal words. -/
theorem decodeOperands_encode {i : Instr} (hi : i.wellFormed = true) (more : List Word) :
    decodeOperands i.opcode i.commandWord (i.literals ++ more) = .instr i := by
  cases i
  case ldu8 | ldu16 | ldu32 | ldu64 | lds8 | lds16 | lds32 | lds64 =>
    simp only [Instr.opcode, Instr.commandWord, Instr.literals, decodeOperands, dField_packWord,
      withLiteral_literalWords (show 8 ≤ 64 by decide), withLiteral_literalWords (show 16 ≤ 64 by decide),
      withLiteral_literalWords (show 32 ≤ 64 by decide), withLiteral_literalWords (show 64 ≤ 64 by decide)]
  case divrem d c a b =>
    have hne : d ≠ c := by simpa [Instr.wellFormed] using hi
    simp [Instr.opcode, Instr.commandWord, decodeOperands, hne]
  case zero | mov | xfer | add | inc | sub | dec | neg | mul | divu | remu | cmp | render =>
    simp [Instr.opcode, Instr.commandWord, decodeOperands]

theorem decode_encode {i : Instr} (hi : i.wellFormed = true) (more : List Word) :
    decode i.commandWord (i.literals ++ more) = .instr i := by
  obtain ⟨hop, hrsv, hunused, -⟩ := fieldLayout i
  rw [decode_of_fields (by rw [hop]; exact ofCode_code i.opcode) hrsv hunused]
  exact decodeOperands_encode hi more

/-- The words of a literal form with the literal n. -/
theorem encodesAs_literal {S n : Nat} (hS : S ≤ 64) (hn : n < 2 ^ S) {i : Instr} {d : Reg}
    (hword : i.commandWord = packWord i.opcode.code d 0 0 0) (hlits : i.literals = literalWords (BitVec.ofNat S n)) :
    encodesAs i [i.opcode.code.toNat + 256 * d.val, n % 2 ^ 32, n / 2 ^ 32] := by
  rw [encodesAs, encode, hword, hlits, List.map_cons, map_toNat_literalWords hS, toNat_packWord, BitVec.toNat_ofNat,
    Nat.mod_eq_of_lt hn]
  rfl

/-! ### Decoding, then encoding (R43) -/

theorem decodeOperands_instr_literals {op : Opcode} {w : Word} {rest : List Word} {i : Instr}
    (h : decodeOperands op w rest = .instr i) : i.wellFormed = true ∧ ∃ more, rest = i.literals ++ more := by
  cases op
  case ldu8 | ldu16 | ldu32 | ldu64 | lds8 | lds16 | lds32 | lds64 =>
    obtain ⟨lit, more, rfl, hrest⟩ := withLiteral_instr_words h
    exact ⟨rfl, more, hrest⟩
  case divrem =>
    simp only [decodeOperands] at h
    split at h
    · cases h
    · next hne => cases h; exact ⟨by simpa [Instr.wellFormed] using hne, rest, rfl⟩
  case zero | mov | xfer | add | inc | sub | dec | neg | mul | divu | remu | cmp | render =>
    cases h; exact ⟨rfl, rest, rfl⟩

/-! ### The match and mask table (R44) -/

/-- The mask of R44 for the register fields an opcode uses: they are left out of the comparison. -/
def FieldUse.mask (u : FieldUse) : Word :=
  0xFF#8 ++ (if u.c then 0#4 else 0xF#4) ++ (if u.b then 0#4 else 0xF#4) ++ (if u.a then 0#4 else 0xF#4) ++
    (if u.d then 0#4 else 0xF#4) ++ 0xFF#8

/-- The row of op matches the word w (R44). -/
def Opcode.matchesWord (op : Opcode) (w : Word) : Prop := w &&& op.uses.mask = packWord op.code 0 0 0 0

/-- The rows of the table are the opcodes, in its order. -/
theorem opcodeRows_eq : opcodeRows = Opcode.all.map fun op => (packWord op.code 0 0 0 0, op.uses.mask) := by decide

theorem opcode_mem_all (op : Opcode) : op ∈ Opcode.all := by cases op <;> decide

theorem opcodeRows_match_iff (w : Word) :
    (∀ row ∈ opcodeRows, w &&& row.2 ≠ row.1) ↔ ∀ op : Opcode, ¬ op.matchesWord w := by
  rw [opcodeRows_eq, List.forall_mem_map]
  exact ⟨fun h op => h op (opcode_mem_all op), fun h op _ => h op⟩

section
variable (w : Word) (u : FieldUse)

theorem opField_mask : opField (w &&& u.mask) = opField w := by
  have hmask : u.mask.extractLsb' 0 8 = BitVec.allOnes 8 := by
    obtain ⟨d, a, b, c⟩ := u
    revert d a b c; decide
  rw [opField, BitVec.extractLsb'_and, hmask, BitVec.and_allOnes, opField]

theorem rsvField_mask : rsvField (w &&& u.mask) = rsvField w := by
  have hmask : u.mask.extractLsb' 24 8 = BitVec.allOnes 8 := by
    obtain ⟨d, a, b, c⟩ := u
    revert d a b c; decide
  rw [rsvField, BitVec.extractLsb'_and, hmask, BitVec.and_allOnes, rsvField]

/-- A register field of a masked word, by its place k: 0 if the opcode uses it, else the word's. -/
theorem regOfBits_mask {used : Bool} {k : Nat}
    (hmask : u.mask.extractLsb' k 4 = if used then 0#4 else BitVec.allOnes 4) :
    regOfBits ((w &&& u.mask).extractLsb' k 4) = if used then 0 else regOfBits (w.extractLsb' k 4) := by
  rw [BitVec.extractLsb'_and, hmask]
  cases used with
  | false => simp only [Bool.false_eq_true, if_false, BitVec.and_allOnes]
  | true => simp [regOfBits]

theorem dField_mask : dField (w &&& u.mask) = if u.d then 0 else dField w := by
  apply regOfBits_mask
  obtain ⟨d, a, b, c⟩ := u
  revert d a b c; decide

theorem aField_mask : aField (w &&& u.mask) = if u.a then 0 else aField w := by
  apply regOfBits_mask
  obtain ⟨d, a, b, c⟩ := u
  revert d a b c; decide

theorem bField_mask : bField (w &&& u.mask) = if u.b then 0 else bField w := by
  apply regOfBits_mask
  obtain ⟨d, a, b, c⟩ := u
  revert d a b c; decide

theorem cField_mask : cField (w &&& u.mask) = if u.c then 0 else cField w := by
  apply regOfBits_mask
  obtain ⟨d, a, b, c⟩ := u
  revert d a b c; decide

end

/-- A row matches exactly when the decoder's three checks of the command word pass. -/
theorem matchesWord_iff (op : Opcode) (w : Word) :
    op.matchesWord w ↔ opField w = op.code ∧ rsvField w = 0 ∧ op.unusedNonzero w = false := by
  have hunused : ∀ (used : Bool) (r : Reg), (if used = true then 0 else r) = 0 ↔ (!used && r != 0) = false := by
    intro used r
    cases used <;> simp
  rw [Opcode.matchesWord, word_eq_iff_fields]
  simp only [opField_mask, rsvField_mask, dField_mask, aField_mask, bField_mask, cField_mask, opField_packWord,
    rsvField_packWord, dField_packWord, aField_packWord, bField_packWord, cField_packWord, hunused,
    Opcode.unusedNonzero, Bool.or_eq_false_iff, and_assoc]

theorem decode_of_matchesWord {op : Opcode} {w : Word} (h : op.matchesWord w) (rest : List Word) :
    decode w rest = decodeOperands op w rest := by
  obtain ⟨hop, hrsv, hunused⟩ := (matchesWord_iff op w).mp h
  exact decode_of_fields (by rw [hop, ofCode_code]) hrsv hunused

/-- A word that no row matches fails one of the decoder's checks, which do not look at the words after it. -/
theorem decode_of_no_match {w : Word} (h : ∀ op : Opcode, ¬ op.matchesWord w) :
    ∃ why, ∀ rest, decode w rest = .illegal why := by
  cases hop : Opcode.ofCode (opField w) with
  | none => exact ⟨.unknownOpcode, fun rest => by simp [decode, hop]⟩
  | some op =>
    by_cases hrsv : rsvField w = 0
    · cases hunused : op.unusedNonzero w with
      | true => exact ⟨.unusedField, fun rest => by simp [decode, hop, hrsv, hunused]⟩
      | false => exact absurd ((matchesWord_iff op w).mpr ⟨(code_of_ofCode hop).symm, hrsv, hunused⟩) (h op)
    · exact ⟨.reservedBits, fun rest => by rw [decode, hop]; exact if_pos hrsv⟩

/-- What of R48 is left to check when a row matches: DIVREM's rule and the literal rule. -/
theorem decodeOperands_illegal_iff {op : Opcode} {w : Word} (hop : opField w = op.code) (rest : List Word) :
    (∃ why, decodeOperands op w rest = .illegal why) ↔
      (w.toNat % 256 = 0x3A ∧ w.toNat / 2 ^ 8 % 16 = w.toNat / 2 ^ 20 % 16) ∨
      (w.toNat % 256 / 8 = 2 ∧ ∃ lo hi tl, rest = lo :: hi :: tl ∧
        2 ^ (8 * 2 ^ (w.toNat % 4)) ≤ lo.toNat + 2 ^ 32 * hi.toNat) := by
  have hcode : w.toNat % 256 = op.code.toNat := by rw [← toNat_opField, hop]
  have hlow : w.toNat % 4 = op.code.toNat % 4 := by omega
  rw [hcode, hlow]
  cases op
  case ldu8 | ldu16 | ldu32 | ldu64 | lds8 | lds16 | lds32 | lds64 =>
    simp [decodeOperands, withLiteral_illegal_iff, Opcode.code]
  case divrem =>
    simp only [decodeOperands, dField_eq_cField_iff]
    split
    · next h => simpa [Opcode.code] using h
    · next h => simpa [Opcode.code] using h
  case zero | mov | xfer | add | inc | sub | dec | neg | mul | divu | remu | cmp | render =>
    simp [decodeOperands, Opcode.code]

/-! ### The length of a command (R46) -/

theorem words_eq_of_code (op : Opcode) :
    op.words = if 0x10 ≤ op.code.toNat ∧ op.code.toNat ≤ 0x17 then 3 else 1 := by cases op <;> decide

/-- The OP of a decoded command's word is its opcode's. -/
theorem opField_of_decode {w : Word} {rest : List Word} {i : Instr} (h : decode w rest = .instr i) :
    opField w = i.opcode.code := by
  obtain ⟨rfl, -⟩ := decode_instr_words h
  exact (fieldLayout i).1

/-- Only a literal form looks at the words after the command word, and with none it waits. -/
theorem decodeOperands_illegal_alone {op : Opcode} {w : Word} {why : Illegal}
    (h : decodeOperands op w [] = .illegal why) (rest : List Word) : decodeOperands op w rest = .illegal why := by
  cases op
  case ldu8 | ldu16 | ldu32 | ldu64 | lds8 | lds16 | lds32 | lds64 => cases h
  case zero | mov | xfer | add | inc | sub | dec | neg | mul | divu | remu | divrem | cmp | render => exact h

/-! ### Literal forms that wait (R47) -/

/-- The literal forms are the eight rows of R44 with OP 0x10..0x17 whose mask leaves out D alone. -/
theorem literal_row : ∀ k < 8, ∃ op ∈ Opcode.all, op.words = 3 ∧ op.uses.mask = 0xFFFFF0FF#32 ∧
    packWord op.code 0 0 0 0 = BitVec.ofNat 32 (0x10 + k) := by decide

theorem decodeOperands_wait {op : Opcode} (hop : op.words = 3) (w : Word) {rest : List Word} (h : rest.length < 2) :
    decodeOperands op w rest = .wait := by
  cases op
  case ldu8 | ldu16 | ldu32 | ldu64 | lds8 | lds16 | lds32 | lds64 => exact withLiteral_wait h
  case zero | mov | xfer | add | inc | sub | dec | neg | mul | divu | remu | divrem | cmp | render => cases hop

/-- A literal form waits for its literal words (R47). -/
theorem decode_wait {w : Word} {ws : List Word} {k : Nat} (hk : k < 8)
    (hw : w &&& 0xFFFFF0FF#32 = BitVec.ofNat 32 (0x10 + k)) (hws : ws.length < 2) : decode w ws = .wait := by
  obtain ⟨op, -, hwords, hmask, hmatch⟩ := literal_row k hk
  have hop : op.matchesWord w := by rw [Opcode.matchesWord, hmask, hw, hmatch]
  rw [decode_of_matchesWord hop]
  exact decodeOperands_wait hwords w hws

/-! ### Literals in assembly (R51, R52) -/

theorem assembleOp_ldi (d : Reg) (n : Nat) : assembleOp .ldi [.reg d, .lit false n] =
    if n < 2 ^ 8 then some [.ldu8 d (BitVec.ofNat 8 n)]
    else if n < 2 ^ 16 then some [.ldu16 d (BitVec.ofNat 16 n)]
    else if n < 2 ^ 32 then some [.ldu32 d (BitVec.ofNat 32 n)]
    else if n < 2 ^ 64 then some [.ldu64 d (BitVec.ofNat 64 n)]
    else none := rfl

theorem forall_widths {P : Nat → Prop} : (∀ S ∈ [8, 16, 32, 64], P S) ↔ P 8 ∧ P 16 ∧ P 32 ∧ P 64 := by simp

/-- The pattern of a negative number. -/
theorem toNat_ofInt_neg {S n : Nat} (hpos : 1 ≤ n) (hlt : n < 2 ^ S) :
    (BitVec.ofInt S (-(n : Int))).toNat = 2 ^ S - n := by
  rw [BitVec.ofInt_neg, BitVec.ofInt_natCast, BitVec.toNat_neg, BitVec.toNat_ofNat, Nat.mod_eq_of_lt hlt,
    Nat.mod_eq_of_lt (by omega)]

end Sys2Proof

namespace Sys2Proof.Machine

/-! ### What the block finds at CP (R50) -/

theorem step_of_blockTurn {s : State} {rest : List Turn} (h : blockTurn s rest) :
    step s = blockStep { s with schedule := rest } := by
  obtain hs | ⟨hs, rfl⟩ := h
  · simp only [step, hs]
  · calc step s = blockStep s := by simp only [step, hs]
      _ = blockStep { s with schedule := [] } := by rw [← hs]

section
variable {s : State} (hcfg : s.cfg ≠ 0#32) (hstream : Memory.wf s.stream = true)
include hcfg hstream

theorem fetch_of_stopped (hreserved : s.run ≠ 3#2) (hrun : s.run ≠ RunState.ready.code) : fetch s = .idle := by
  simp [fetch, hreserved, hcfg, hstream, hrun]

variable (hrun : s.run = RunState.ready.code)
include hrun

theorem fetch_of_end (hwindow : s.window = []) : fetch s = .idle := by
  simp [fetch, hrun, hcfg, hstream, RunState.code, hwindow]

variable {w : Word} {ws : List Word} (hwindow : s.window = w :: ws)
include hwindow

theorem fetch_of_wait (h : decode w ws = .wait) : fetch s = .idle := by
  simp [fetch, hrun, hcfg, hstream, RunState.code, hwindow, h]

theorem fetch_of_illegal {why : Illegal} (h : decode w ws = .illegal why) : fetch s = .illegal w := by
  simp [fetch, hrun, hcfg, hstream, RunState.code, hwindow, h]

theorem fetch_of_instr {i : Instr} (h : decode w ws = .instr i) : fetch s = .instr i := by
  simp [fetch, hrun, hcfg, hstream, RunState.code, hwindow, h]

end

theorem blockStep_of_idle {s : State} (h : fetch s = .idle) : blockStep s = .next s := by simp only [blockStep, h]

theorem blockStep_of_illegal {s : State} {w : Word} (h : fetch s = .illegal w) :
    blockStep s = .next (s.enter .halted .illegalCommand w) := by simp only [blockStep, h]

theorem blockStep_of_instr {s : State} {i : Instr} (h : fetch s = .instr i) : blockStep s = exec i s := by
  simp only [blockStep, h]

theorem cfg_ne_zero {s : State} (h : Inv s) : s.cfg ≠ 0#32 := fun h0 =>
  absurd h.limbs_pos (by rw [State.limbs, h0]; decide)

theorem run_ne_reserved {s : State} (h : Inv s) : s.run ≠ 3#2 := fun h3 =>
  absurd h.status.run_le (by rw [show Status.run s.status = 3#2 from h3]; decide)

/-- None of the model's own stops (logs 5 to 7) is reached on the block's turn, and no command's meaning stops. -/
theorem blockStep_answers {s : State} (h : Inv s) : ∃ t, blockStep s = .next t := by
  have hcfg := cfg_ne_zero h
  by_cases hrun : s.run = RunState.ready.code
  · cases hwindow : s.window with
    | nil => exact ⟨_, blockStep_of_idle (fetch_of_end hcfg h.stream hrun hwindow)⟩
    | cons w ws =>
      cases hdecode : decode w ws with
      | wait => exact ⟨_, blockStep_of_idle (fetch_of_wait hcfg h.stream hrun hwindow hdecode)⟩
      | illegal why => exact ⟨_, blockStep_of_illegal (fetch_of_illegal hcfg h.stream hrun hwindow hdecode)⟩
      | instr i =>
        obtain ⟨t, hexec, -⟩ := exec_completesOrStops i s
        exact ⟨t, (blockStep_of_instr (fetch_of_instr hcfg h.stream hrun hwindow hdecode)).trans hexec⟩
  · exact ⟨_, blockStep_of_idle (fetch_of_stopped hcfg h.stream (run_ne_reserved h) hrun)⟩

/-- Of the host's actions SUPPLY alone can be refused (R11, R105). -/
theorem hostStep_answers {a : HostAction} {s : State}
    (h : ∀ ws, a = .supply ws → s.stream.length + ws.length ≤ 2 ^ 32 - 1) : ∃ t, hostStep a s = .next t := by
  cases a with
  | supply ws => exact ⟨_, if_pos ((wf_iff _).mpr (by rw [List.length_append]; exact h ws rfl))⟩
  | read r => exact ⟨_, rfl⟩
  | resume => exact ⟨_, rfl⟩
  | reset => exact ⟨_, rfl⟩

/-! ### INC and DEC on numbers (R69, R72) -/

/-- A number's lowest base-256 digit and the rest, reduced modulo 256^(n+1). -/
theorem add_mul_mod_pow_succ {l : Nat} (hl : l < 256) (x n : Nat) :
    (l + 256 * x) % 256 ^ (n + 1) = l + 256 * (x % 256 ^ n) := by
  rw [Nat.pow_succ', Nat.mod_mul, Nat.add_mul_mod_self_left, Nat.mod_eq_of_lt hl, Nat.add_mul_div_left _ _ (by decide),
    Nat.div_eq_of_lt hl, Nat.zero_add]

theorem val_increment (v : Value) : val (increment v) = (val v + 1) % 256 ^ v.length := by
  induction v with
  | nil => rfl
  | cons l ls ih =>
    have hl := l.isLt
    by_cases hwrap : l.toNat = 255
    · have hlimb : increment (l :: ls) = 0#8 :: increment ls := by simp [increment, hwrap]
      rw [hlimb, val_cons, ih, val_cons, hwrap, show 255 + 256 * val ls + 1 = 0 + 256 * (val ls + 1) by ring,
        List.length_cons, add_mul_mod_pow_succ (by decide)]
      rfl
    · have hlimb : increment (l :: ls) = BitVec.ofNat 8 (l.toNat + 1) :: ls := by
        have hmod : (l.toNat + 1) % 256 = l.toNat + 1 := Nat.mod_eq_of_lt (by omega)
        have hne : BitVec.ofNat 8 (l.toNat + 1) ≠ 0#8 := by
          rw [ne_eq, ← BitVec.toNat_inj, BitVec.toNat_ofNat, BitVec.toNat_ofNat]
          omega
        simp [increment, hmod, hne]
      rw [hlimb, val_cons, val_cons, BitVec.toNat_ofNat, Nat.mod_eq_of_lt (by omega),
        show l.toNat + 256 * val ls + 1 = (l.toNat + 1) + 256 * val ls by ring, List.length_cons,
        add_mul_mod_pow_succ (by omega), Nat.mod_eq_of_lt (val_lt ls)]

theorem val_decrement (v : Value) : val (decrement v) = (256 ^ v.length + val v - 1) % 256 ^ v.length := by
  induction v with
  | nil => rfl
  | cons l ls ih =>
    have hl := l.isLt
    by_cases hborrow : l = 0#8
    · have hlimb : decrement (l :: ls) = 255#8 :: decrement ls := by simp [decrement, hborrow]
      have hsum : 255 + 256 * (256 ^ ls.length + val ls - 1) = 256 ^ (ls.length + 1) + (0 + 256 * val ls) - 1 := by
        have hpos : 0 < 256 ^ ls.length := Nat.pow_pos (by decide)
        rw [Nat.pow_succ']
        omega
      rw [hlimb, val_cons, ih, val_cons, hborrow, List.length_cons, ← add_mul_mod_pow_succ (by decide)]
      exact congrArg (· % 256 ^ (ls.length + 1)) hsum
    · have hlimb : decrement (l :: ls) = BitVec.ofNat 8 (l.toNat - 1) :: ls := by simp [decrement, hborrow]
      have hne : l.toNat ≠ 0 := fun h => hborrow (BitVec.eq_of_toNat_eq h)
      have hsum : 256 ^ (ls.length + 1) + (l.toNat + 256 * val ls) - 1 =
          256 ^ (ls.length + 1) + (l.toNat - 1 + 256 * val ls) := by omega
      rw [hlimb, val_cons, val_cons, BitVec.toNat_ofNat, Nat.mod_eq_of_lt (by omega), List.length_cons, hsum,
        Nat.add_mod_left, add_mul_mod_pow_succ (by omega), Nat.mod_eq_of_lt (val_lt ls)]

/-! ### Two commands in a row -/

theorem onlyRegs_trans {ds es : List Reg} {s t u : State} (hst : onlyRegs ds s t) (htu : onlyRegs es t u) :
    onlyRegs (ds ++ es) s u := by
  obtain ⟨hreg, hstatus, htext, hdraws, hfcmd, hfcp, hcfg, hstream, hsched⟩ := hst
  obtain ⟨hreg', hstatus', htext', hdraws', hfcmd', hfcp', hcfg', hstream', hsched'⟩ := htu
  refine ⟨fun r hr => ?_, hstatus'.trans hstatus, htext'.trans htext, hdraws'.trans hdraws, hfcmd'.trans hfcmd,
    hfcp'.trans hfcp, hcfg'.trans hcfg, hstream'.trans hstream, hsched'.trans hsched⟩
  rw [List.mem_append, not_or] at hr
  exact (hreg' r hr.2).trans (hreg r hr.1)

theorem completedBy_trans {m n : Nat} {s t u : State} (hst : completedBy m s t) (htu : completedBy n t u) :
    completedBy (m + n) s u := by
  rw [completedBy] at *
  rw [htu, hst, BitVec.ofNat_add, BitVec.add_assoc]

/-- The postfix expansion: the copy, then the one-word command i that writes f of the source back to it (R52). -/
theorem mov_then_update {d a : Reg} (hne : d ≠ a) {i : Instr} {f : Value → Value} (hwords : i.opcode.words = 1)
    (hi : ∀ s, exec i s = finish i (s.setReg a (f (s.reg a)))) (s : State) :
    ∃ s1 s2, exec (.mov d a) s = .next s1 ∧ exec i s1 = .next s2 ∧ s2.reg d = s.reg a ∧
      s2.reg a = f (s.reg a) ∧ onlyRegs [d, a] s s2 ∧ completedBy 2 s s2 := by
  obtain ⟨s1, hmov, hd, honly, hcp⟩ := finish_setReg_spec (.mov d a) d (s.reg a) s
  obtain ⟨s2, hstep, ha, honly', hcp'⟩ := finish_setReg_spec i a (f (s1.reg a)) s1
  have hsource : s1.reg a = s.reg a := honly.1 a (by simpa using hne.symm)
  rw [hwords] at hcp'
  refine ⟨s1, s2, hmov, (hi s1).trans hstep, ?_, by rw [ha, hsource], onlyRegs_trans honly honly',
    completedBy_trans hcp hcp'⟩
  rw [honly'.1 d (by simpa using hne), hd]

/-- A register written with what it holds is unchanged. -/
theorem setReg_reg_self (s : State) (r : Reg) : s.setReg r (s.reg r) = s := by
  simp only [State.setReg, State.reg, Vector.set_getElem_self]

/-! ### Negative literals (R62) -/

/-- A native source is negative in the upper half of its patterns. -/
theorem negative_eq_true_iff {S : Nat} (lit : BitVec S) : negative lit = true ↔ 2 ^ (S - 1) ≤ lit.toNat := by
  rw [negative, BitVec.getLsbD_last, decide_eq_true_eq]

theorem widenS_negative (i : Instr) (d : Reg) {S : Nat} {lit : BitVec S} {s : State} (hwidth : S ≤ 8 * s.limbs)
    (hneg : negative lit = true) : widenS i d lit s = raiseHalt .contractNegative i s := by
  rw [widenS, if_neg (by omega), if_pos hneg]

/-- A signed literal form of width S, whatever the width: the assembler's check is the range of the patterns whose top
bit is set. -/
theorem negativeLiterals_asmS {S n : Nat} (hS : 1 ≤ S) (hn : 1 ≤ n) (d : Reg) (mk : Reg → BitVec S → Instr)
    (hexec : ∀ lit s, exec (mk d lit) s = widenS (mk d lit) d lit s) :
    negativeLiterals S n (asmS S [.reg d, .lit true n] mk) (mk d) := by
  have htwice : 2 ^ S = 2 * 2 ^ (S - 1) := by rw [← Nat.pow_succ', Nat.succ_eq_add_one, Nat.sub_add_cancel hS]
  refine ⟨fun hle => ?_, fun hlt => ?_⟩
  · have hpattern : (BitVec.ofInt S (-(n : Int))).toNat = 2 ^ S - n := toNat_ofInt_neg hn (by omega)
    have hneg : negative (BitVec.ofInt S (-(n : Int))) = true := by
      rw [negative_eq_true_iff, hpattern]
      omega
    refine ⟨_, by simp only [asmS, signedLit, if_true, if_pos hle, Option.map_some], hpattern, fun s hwidth => ?_⟩
    rw [haltsWith, hexec, widenS_negative _ d hwidth hneg]
    exact raiseHalt_spec _ _ s
  · simp only [asmS, signedLit, if_true, if_neg (Nat.not_le.mpr hlt), Option.map_none]

end Sys2Proof.Machine

namespace Sys2Proof

open Machine

/-- Settles O2: the command word passes the decoder's checks by its layout, and its fields and literal words give the
operands back. -/
theorem decodeOfEncodeIsIdentity : Obligations.DecodeOfEncodeIsIdentity := by
  unfold Obligations.DecodeOfEncodeIsIdentity
  intro i more hi
  exact ⟨i.commandWord, i.literals ++ more, rfl, decode_encode hi more⟩

/-- Settles O3: the command word is w, since RSV and the unused fields are 0, and a literal that fits its width is the
extension of its operand. -/
theorem encodeOfDecodeIsTheWordsRead : Obligations.EncodeOfDecodeIsTheWordsRead := by
  unfold Obligations.EncodeOfDecodeIsTheWordsRead
  intro w rest i h
  obtain ⟨hword, -⟩ := decode_instr_words h
  obtain ⟨op, -, -, -, hoperands⟩ := decode_instr h
  obtain ⟨hwf, more, hrest⟩ := decodeOperands_instr_literals hoperands
  exact ⟨hwf, more, by rw [encode, hword, hrest]; rfl⟩

/-- Settles O4: if a row matches, the decoder goes on to the operands, and if none does, a check of the command word
fails. -/
theorem illegalExactlyByTheOpcodeTable : Obligations.IllegalExactlyByTheOpcodeTable := by
  unfold Obligations.IllegalExactlyByTheOpcodeTable
  intro w rest
  rw [illegalSpelling, opcodeRows_match_iff]
  by_cases hmatch : ∃ op : Opcode, op.matchesWord w
  · obtain ⟨op, hop⟩ := hmatch
    rw [decode_of_matchesWord hop, decodeOperands_illegal_iff ((matchesWord_iff op w).mp hop).1]
    exact (or_iff_right fun h => h op hop).symm
  · have hnone := not_exists.mp hmatch
    obtain ⟨why, hwhy⟩ := decode_of_no_match hnone
    exact ⟨fun _ => .inl hnone, fun _ => ⟨why, hwhy rest⟩⟩

/-- Settles O5: a decoded command's opcode is the OP of its word; and what makes a word illegal by itself is a check
that does not read the words after it. -/
theorem lengthFollowsFromOpcode : Obligations.LengthFollowsFromOpcode := by
  unfold Obligations.LengthFollowsFromOpcode
  refine ⟨fun w rest i h => ?_, fun w rest why h => ?_⟩
  · rw [length_encode, words_eq_of_code, ← opField_of_decode h, toNat_opField]
  · by_cases hmatch : ∃ op : Opcode, op.matchesWord w
    · obtain ⟨op, hop⟩ := hmatch
      rw [decode_of_matchesWord hop] at h ⊢
      exact decodeOperands_illegal_alone h rest
    · obtain ⟨why', hwhy⟩ := decode_of_no_match (not_exists.mp hmatch)
      rw [hwhy] at h ⊢
      exact h

/-- Settles O8: by the table of R44 the illegal spellings are those the decoder rejects, and the halt entry writes
CAUSE, RUN, FCMD and FCP alone. -/
theorem stepHaltsOnAnIllegalCommand : Obligations.StepHaltsOnAnIllegalCommand := by
  unfold Obligations.StepHaltsOnAnIllegalCommand
  intro s rest w ws hturn hrun hcfg hstream hwindow hillegal
  obtain ⟨why, hdecode⟩ := (illegalExactlyByTheOpcodeTable w ws).mpr hillegal
  rw [step_of_blockTurn hturn]
  exact ⟨_, blockStep_of_illegal (fetch_of_illegal hcfg hstream hrun hwindow hdecode), stoppedWith_enter _ _ _ _⟩

/-- Settles O9: in each of the four cases fetch answers idle. -/
theorem idleBlockHoldsAllState : Obligations.IdleBlockHoldsAllState := by
  unfold Obligations.IdleBlockHoldsAllState
  intro s rest hturn hcfg hstream hcase
  rw [step_of_blockTurn hturn]
  apply blockStep_of_idle
  obtain htrapped | hhalted | ⟨hready, hend⟩ | ⟨hready, w, ws, k, hwindow, hws, hk, hw⟩ := hcase
  · exact fetch_of_stopped hcfg hstream (ne_of_eq_of_ne htrapped (by decide)) (ne_of_eq_of_ne htrapped (by decide))
  · exact fetch_of_stopped hcfg hstream (ne_of_eq_of_ne hhalted (by decide)) (ne_of_eq_of_ne hhalted (by decide))
  · exact fetch_of_end hcfg hstream hready (List.drop_eq_nil_of_le hend)
  · exact fetch_of_wait hcfg hstream hready hwindow (decode_wait hk hw hws)

/-- Settles O48: the block's turn and the host's each answer a next state, whatever the rest of the schedule. -/
theorem invariantStatesNeverStop : Obligations.InvariantStatesNeverStop := by
  unfold Obligations.InvariantStatesNeverStop
  intro s hs hsupply
  match hturn : s.schedule with
  | [] =>
    rw [step_of_blockTurn (.inr ⟨hturn, rfl⟩)]
    exact blockStep_answers (inv_schedule hs [])
  | .block :: rest =>
    rw [step_of_blockTurn (.inl hturn)]
    exact blockStep_answers (inv_schedule hs rest)
  | .host a :: rest =>
    rw [step_host hturn]
    exact hostStep_answers fun ws ha => hsupply ws rest (by rw [hturn, ha])

/-- Settles O56: MOV, then INC or DEC of the source, which vD ≠ vA leaves as it was; one more or less is what the limb
loops compute. -/
theorem postfixFormsYieldTheOldValue : Obligations.PostfixFormsYieldTheOldValue := by
  unfold Obligations.PostfixFormsYieldTheOldValue
  intro d a hne s hregs
  constructor
  · obtain ⟨s1, s2, hmov, hinc, hd, ha, honly, hcp⟩ :=
      mov_then_update (i := .inc a a) (f := increment) hne rfl (fun _ => rfl) s
    refine ⟨.mov d a, .inc a a, s1, s2, if_neg hne, hmov, hinc, hd, ?_, honly, hcp⟩
    rw [ha, val_increment, hregs a, pow_width]
  · obtain ⟨s1, s2, hmov, hdec, hd, ha, honly, hcp⟩ :=
      mov_then_update (i := .dec a a) (f := decrement) hne rfl (fun _ => rfl) s
    refine ⟨.mov d a, .dec a a, s1, s2, if_neg hne, hmov, hdec, hd, ?_, honly, hcp⟩
    rw [ha, val_decrement, hregs a, pow_width]

/-- Settles O57: writing a register's own value back changes nothing, so CP alone moves. -/
theorem nopChangesOnlyTheCommandPointer : Obligations.NopChangesOnlyTheCommandPointer := by
  unfold Obligations.NopChangesOnlyTheCommandPointer
  refine ⟨rfl, fun d s => ?_⟩
  calc exec (.mov d d) s = finish (.mov d d) (s.setReg d (s.reg d)) := rfl
    _ = finish (.mov d d) s := by rw [setReg_reg_self]
    _ = .next { s with cp := s.cp + 1 } := rfl

/-- Settles O58: LDI goes through the widths upwards, so the first that holds n is the least. -/
theorem ldiPicksTheSmallestWidth : Obligations.LdiPicksTheSmallestWidth := by
  unfold Obligations.LdiPicksTheSmallestWidth
  refine ⟨fun d n h64 => ?_, fun d n hlarge => ?_, fun d n => rfl⟩
  · rw [assembleOp_ldi]
    by_cases h8 : n < 2 ^ 8
    · rw [if_pos h8]
      exact ⟨_, 8, rfl, rfl, h8, forall_widths.mpr (by omega), 0x10, by decide, by decide,
        encodesAs_literal (by decide) h8 rfl rfl⟩
    rw [if_neg h8]
    by_cases h16 : n < 2 ^ 16
    · rw [if_pos h16]
      exact ⟨_, 16, rfl, rfl, h16, forall_widths.mpr (by omega), 0x11, by decide, by decide,
        encodesAs_literal (by decide) h16 rfl rfl⟩
    rw [if_neg h16]
    by_cases h32 : n < 2 ^ 32
    · rw [if_pos h32]
      exact ⟨_, 32, rfl, rfl, h32, forall_widths.mpr (by omega), 0x12, by decide, by decide,
        encodesAs_literal (by decide) h32 rfl rfl⟩
    · rw [if_neg h32, if_pos h64]
      exact ⟨_, 64, rfl, rfl, h64, forall_widths.mpr (by omega), 0x13, by decide, by decide,
        encodesAs_literal (by decide) h64 rfl rfl⟩
  · rw [assembleOp_ldi, if_neg (by omega), if_neg (by omega), if_neg (by omega), if_neg (by omega)]

/-- Settles O59: the four signed forms are one proof for their widths. -/
theorem negativeLiteralsAreEncodedAndHalt : Obligations.NegativeLiteralsAreEncodedAndHalt := by
  unfold Obligations.NegativeLiteralsAreEncodedAndHalt
  intro d n hn
  exact ⟨negativeLiterals_asmS (by decide) hn d .lds8 fun _ _ => rfl,
    negativeLiterals_asmS (by decide) hn d .lds16 fun _ _ => rfl,
    negativeLiterals_asmS (by decide) hn d .lds32 fun _ _ => rfl,
    negativeLiterals_asmS (by decide) hn d .lds64 fun _ _ => rfl⟩

/-- Settles O1: the encoder computes the words of each row, and they decode back by the round trip. -/
theorem workedEncodingsBothWays : Obligations.WorkedEncodingsBothWays := by
  unfold Obligations.WorkedEncodingsBothWays
  exact ⟨⟨by decide, decode_encode (i := .add 1 2 3) rfl []⟩,
    ⟨by decide, decode_encode (i := .sub 4 2 1) rfl []⟩,
    ⟨by decide, decode_encode (i := .inc 3 3) rfl []⟩,
    ⟨by decide, decode_encode (i := .divrem 3 4 1 2) rfl []⟩,
    ⟨by decide, decode_encode (i := .cmp 5 1) rfl []⟩,
    ⟨by decide, decode_encode (i := .render 3) rfl []⟩,
    ⟨by decide, decode_encode (i := .ldu16 1 300) rfl []⟩,
    ⟨by decide, decode_encode (i := .ldu64 1 0xFFFFFFFFFFFFFFFF) rfl []⟩⟩

/-- Settles O7: the turn used up, fetch decodes the words at CP. -/
theorem stepRunsTheDecodedCommand : Obligations.StepRunsTheDecodedCommand := by
  unfold Obligations.StepRunsTheDecodedCommand
  intro s rest w ws i hturn hrun hcfg hstream hwindow hdecode
  rw [step_of_blockTurn hturn]
  exact blockStep_of_instr (fetch_of_instr hcfg hstream hrun hwindow hdecode)

end Sys2Proof
end

section
/-! PROOFS of the family 40_construction.md. A native source as the N-limb value of its number (R57), what the eight
literal forms have in common (R45, R48), and from it WidenU and WidenS at every width; then ZERO, MOV and XFER (R54 to
R56). -/

namespace Sys2Proof.Machine

/-! ### The value of a native source (R26, R57) -/

/-- The limbs of a number are its base-256 digits. -/
theorem ofNat_eq_map_range (n x : Nat) : ofNat n x = (List.range n).map fun k => BitVec.ofNat 8 (x / 256 ^ k) := by
  induction n generalizing x with
  | zero => rfl
  | succ n ih =>
    have hlow : BitVec.ofNat 8 (x % 256) = BitVec.ofNat 8 (x / 256 ^ 0) := by
      rw [pow_zero, Nat.div_one, ← BitVec.toNat_inj, BitVec.toNat_ofNat, BitVec.toNat_ofNat, Nat.mod_mod]
    have hhigh : ∀ k, x / 256 / 256 ^ k = x / 256 ^ (k + 1) := fun k => by rw [Nat.div_div_eq_div_mul, Nat.pow_succ']
    rw [ofNat, ih, hlow, List.range_succ_eq_map, List.map_cons, List.map_map]
    simp only [hhigh, Function.comp_def, Nat.succ_eq_add_one]

/-- Widening is by number: a low limb is a digit of the literal, and above the source every digit is 0. -/
theorem widen_eq_ofNat {S : Nat} (hS : 8 ∣ S) (n : Nat) (lit : BitVec S) : widen n lit = ofNat n lit.toNat := by
  rw [ofNat_eq_map_range, widen]
  refine List.map_congr_left fun k _ => ?_
  split
  · rw [BitVec.extractLsb', Nat.shiftRight_eq_div_pow, Nat.pow_mul]
  · next hk =>
    have hzero : lit.toNat / 256 ^ k = 0 := Nat.div_eq_of_lt <| calc
      lit.toNat < 2 ^ S := lit.isLt
      _ ≤ 2 ^ (8 * k) := Nat.pow_le_pow_right (by decide) (by omega)
      _ = 256 ^ k := pow_width k
    rw [hzero]

/-- R57: where the limbs hold the source, nothing of it is lost. -/
theorem val_widen {S n : Nat} (hS : 8 ∣ S) (hfits : S ≤ 8 * n) (lit : BitVec S) : val (widen n lit) = lit.toNat := by
  have hlt : lit.toNat < 256 ^ n := pow_width n ▸ lit.isLt.trans_le (Nat.pow_le_pow_right (by decide) hfits)
  rw [widen_eq_ofNat hS, val_ofNat, Nat.mod_eq_of_lt hlt]

end Sys2Proof.Machine

namespace Sys2Proof

open Machine

/-! ### The literal forms (R45, R48) -/

theorem withLiteral_wide {S : Nat} (mk : BitVec S → Instr) {lo hi : Word} (rest : List Word)
    (hwide : 2 ^ S ≤ lo.toNat + 2 ^ 32 * hi.toNat) : withLiteral S mk (lo :: hi :: rest) = .illegal .wideLiteral := by
  have hhigh : (hi ++ lo : BitVec 64) >>> S ≠ 0 := by
    rw [ne_eq, ushiftRight_eq_zero_iff, toNat_append_words]
    omega
  exact if_pos hhigh

/-- The commands mk d lit are the literal form with OP code and source width S: how they are encoded, and that the
decoder's last check is the literal rule (R44, R45). -/
structure LiteralForm {S : Nat} (code : BitVec 8) (mk : Reg → BitVec S → Instr) : Prop where
  width_dvd : 8 ∣ S
  width_le : S ≤ 64
  encode_eq : ∀ d lit, encode (mk d lit) = packWord code d 0 0 0 :: literalWords lit
  decode_eq : ∀ d lit w rest, decodeOperands (mk d lit).opcode w rest = withLiteral S (mk (dField w)) rest

theorem literalForm_ldu8 : LiteralForm 0x10 .ldu8 :=
  ⟨by decide, by decide, fun _ _ => rfl, fun _ _ _ _ => rfl⟩

theorem literalForm_ldu16 : LiteralForm 0x11 .ldu16 :=
  ⟨by decide, by decide, fun _ _ => rfl, fun _ _ _ _ => rfl⟩

theorem literalForm_ldu32 : LiteralForm 0x12 .ldu32 :=
  ⟨by decide, by decide, fun _ _ => rfl, fun _ _ _ _ => rfl⟩

theorem literalForm_ldu64 : LiteralForm 0x13 .ldu64 :=
  ⟨by decide, by decide, fun _ _ => rfl, fun _ _ _ _ => rfl⟩

theorem literalForm_lds8 : LiteralForm 0x14 .lds8 :=
  ⟨by decide, by decide, fun _ _ => rfl, fun _ _ _ _ => rfl⟩

theorem literalForm_lds16 : LiteralForm 0x15 .lds16 :=
  ⟨by decide, by decide, fun _ _ => rfl, fun _ _ _ _ => rfl⟩

theorem literalForm_lds32 : LiteralForm 0x16 .lds32 :=
  ⟨by decide, by decide, fun _ _ => rfl, fun _ _ _ _ => rfl⟩

theorem literalForm_lds64 : LiteralForm 0x17 .lds64 :=
  ⟨by decide, by decide, fun _ _ => rfl, fun _ _ _ _ => rfl⟩

end Sys2Proof

namespace Sys2Proof.Machine

/-! ### WidenU and WidenS for every literal form (R57, R62) -/

theorem haltsWith_of_exec {i : Instr} {c : Cause} {s : State} (h : exec i s = raiseHalt c i s) : haltsWith i c s := by
  rw [haltsWith, h]
  exact raiseHalt_spec c i s

section
variable {S : Nat} {code : BitVec 8} {mk : Reg → BitVec S → Instr} (hform : LiteralForm code mk) (d : Reg)
  (lit : BitVec S)
include hform

theorem encodesAs_literalForm :
    encodesAs (mk d lit) [code.toNat + 256 * d.val, lit.toNat % 2 ^ 32, lit.toNat / 2 ^ 32] := by
  rw [encodesAs, hform.encode_eq, List.map_cons, toNat_packWord, map_toNat_literalWords hform.width_le]
  rfl

theorem words_literalForm : (mk d lit).opcode.words = 3 := by
  rw [← length_encode, hform.encode_eq]
  rfl

/-- The command word passes the decoder's checks, so what is left is the literal rule. -/
theorem wideLiteralIllegal_literalForm : wideLiteralIllegal (mk d lit) S := by
  intro lo hi rest hwide
  obtain ⟨hop, hrsv, hunused, -⟩ := fieldLayout (mk d lit)
  rw [decode_of_fields (by rw [hop, ofCode_code]) hrsv hunused, hform.decode_eq]
  exact withLiteral_wide _ rest hwide

theorem widensTo_literalForm {s : State} (hfits : S ≤ 8 * s.limbs)
    (hexec : exec (mk d lit) s = finish (mk d lit) (s.setReg d (widen s.limbs lit))) :
    widensTo (mk d lit) d lit.toNat s := by
  obtain ⟨t, hnext, hd, honly, hcp⟩ := finish_setReg_spec (mk d lit) d (widen s.limbs lit) s
  rw [words_literalForm hform] at hcp
  refine ⟨t, hexec.trans hnext, ?_, ?_, honly, hcp⟩
  · rw [hd, val_widen hform.width_dvd hfits]
  · rw [hd, length_widen]

theorem wideningUnsigned_literalForm (hexec : ∀ d lit s, exec (mk d lit) s = widenU (mk d lit) d lit s) :
    wideningUnsigned S code.toNat mk := by
  intro d lit s
  refine ⟨encodesAs_literalForm hform d lit, wideLiteralIllegal_literalForm hform d lit, ?_⟩
  have hcases := widenU_cases (mk d lit) d lit s
  rw [← hexec] at hcases
  obtain ⟨hlt, h⟩ | ⟨hle, h⟩ := hcases
  · exact ⟨fun _ => haltsWith_of_exec h, fun hle => absurd hlt hle.not_gt⟩
  · exact ⟨fun hlt => absurd hlt hle.not_gt, fun _ => widensTo_literalForm hform d lit hle h⟩

theorem wideningSigned_literalForm (hexec : ∀ d lit s, exec (mk d lit) s = widenS (mk d lit) d lit s) :
    wideningSigned S code.toNat mk := by
  intro d lit s
  have hsign := negative_eq_true_iff lit
  refine ⟨encodesAs_literalForm hform d lit, wideLiteralIllegal_literalForm hform d lit, ?_⟩
  have hcases := widenS_cases (mk d lit) d lit s
  rw [← hexec] at hcases
  obtain ⟨hlt, h⟩ | ⟨hle, hneg, h⟩ | ⟨hle, hneg, h⟩ := hcases
  · exact ⟨fun _ => haltsWith_of_exec h, fun hle => absurd hlt hle.not_gt, fun hle => absurd hlt hle.not_gt⟩
  · exact ⟨fun hlt => absurd hlt hle.not_gt, fun _ _ => haltsWith_of_exec h,
      fun _ hlow => absurd (hsign.mp hneg) hlow.not_ge⟩
  · exact ⟨fun hlt => absurd hlt hle.not_gt, fun _ hhigh => absurd (hsign.mpr hhigh) (by simp [hneg]),
      fun _ _ => widensTo_literalForm hform d lit hle h⟩

end

/-! ### Commands of one word (R41, R56) -/

/-- The word of a command without a literal, as the sum of its fields. -/
theorem encodesAs_packWord {i : Instr} {d a b c : Reg} (hword : i.commandWord = packWord i.opcode.code d a b c)
    (hlits : i.literals = []) :
    encodesAs i [i.opcode.code.toNat + 256 * d.val + 4096 * a.val + 65536 * b.val + 1048576 * c.val] := by
  rw [encodesAs, encode, hword, hlits, List.map_cons, toNat_packWord, List.map_nil]

/-- XFER is the move, then the draw into the source; with D = A the move changes nothing (R56). -/
theorem exec_xfer (d a : Reg) (s : State) :
    exec (.xfer d a) s = .next (((s.setReg d (s.reg a)).setReg a s.drawValue).drawn.advance 1) := by
  by_cases h : d = a
  · calc exec (.xfer d a) s = .next ((s.setReg d s.drawValue).drawn.advance 1) := if_pos h
      _ = _ := by rw [h, setReg_reg_self]
  · exact if_neg h

end Sys2Proof.Machine

namespace Sys2Proof

open Machine

/-- Settles O13: the four unsigned forms are one proof for their widths. -/
theorem unsignedWidening : Obligations.UnsignedWidening := by
  unfold Obligations.UnsignedWidening
  exact ⟨wideningUnsigned_literalForm literalForm_ldu8 fun _ _ _ => rfl,
    wideningUnsigned_literalForm literalForm_ldu16 fun _ _ _ => rfl,
    wideningUnsigned_literalForm literalForm_ldu32 fun _ _ _ => rfl,
    wideningUnsigned_literalForm literalForm_ldu64 fun _ _ _ => rfl⟩

/-- Settles O14: the four signed forms are one proof for their widths. -/
theorem signedWideningRefusesNegatives : Obligations.SignedWideningRefusesNegatives := by
  unfold Obligations.SignedWideningRefusesNegatives
  exact ⟨wideningSigned_literalForm literalForm_lds8 fun _ _ _ => rfl,
    wideningSigned_literalForm literalForm_lds16 fun _ _ _ => rfl,
    wideningSigned_literalForm literalForm_lds32 fun _ _ _ => rfl,
    wideningSigned_literalForm literalForm_lds64 fun _ _ _ => rfl⟩

/-- Settles O10: ZERO is one register write of N zero limbs. -/
theorem zeroWritesTheZeroValue : Obligations.ZeroWritesTheZeroValue := by
  unfold Obligations.ZeroWritesTheZeroValue
  intro d s
  obtain ⟨t, hnext, hd, honly, hcp⟩ := finish_setReg_spec (.zero d) d (zeros s.limbs) s
  exact ⟨(encodesAs_packWord (i := .zero d) rfl rfl :), t, hnext, hd, by rw [hd, val_zeros], honly, hcp⟩

/-- Settles O11: MOV is one register write of the source's value. -/
theorem movCopiesTheSource : Obligations.MovCopiesTheSource := by
  unfold Obligations.MovCopiesTheSource
  intro d a s
  exact ⟨(encodesAs_packWord (i := .mov d a) rfl rfl :), finish_setReg_spec (.mov d a) d (s.reg a) s⟩

/-- Settles O12: XFER is two register writes, of which the second, to the source, keeps D unless D = A. -/
theorem xferMovesAndLeavesADraw : Obligations.XferMovesAndLeavesADraw := by
  unfold Obligations.XferMovesAndLeavesADraw
  intro d a s
  refine ⟨(encodesAs_packWord (i := .xfer d a) rfl rfl :), _, exec_xfer d a s, fun hne => ?_, ?_, fun r hr => ?_, rfl,
    rfl, rfl, ⟨rfl, rfl, rfl, rfl, rfl⟩, rfl⟩
  · rw [reg_advance, reg_drawn, reg_setReg_of_ne _ hne, reg_setReg_same]
  · rw [reg_advance, reg_drawn, reg_setReg_same, State.drawValue]
  · obtain ⟨hd, ha⟩ : r ≠ d ∧ r ≠ a := by simpa using hr
    rw [reg_advance, reg_drawn, reg_setReg_of_ne _ ha, reg_setReg_of_ne _ hd]

end Sys2Proof
end

section
/-! PROOFS of the family 41_adder.md. The limb loops of the adder, the subtractor and the complement as arithmetic
modulo 256^N (spec/41_adder.md R67; spec/42_subtractor.md R70, R73), each by induction on the limbs; two loops of one
length and one number are then equal limb for limb (R5). -/

namespace Sys2Proof.Machine

/-! ### The loops on numbers (R67, R70, R73) -/

/-- R67, with any carry in: limb 0 holds the sum's low digit, and the rest adds its carry. -/
theorem val_rippleAdd {a b : Value} (hlen : a.length = b.length) (c : Nat) :
    val (rippleAdd a b c) = (val a + val b + c) % 256 ^ a.length := by
  induction a generalizing b c with
  | nil => exact (Nat.mod_one _).symm
  | cons x as ih =>
    cases b with
    | nil => cases hlen
    | cons y bs =>
      have hlimb : (c + x.toNat + y.toNat) % 256 < 256 := Nat.mod_lt _ (by decide)
      rw [rippleAdd, val_cons, ih (by simpa using hlen), BitVec.toNat_ofNat, Nat.mod_eq_of_lt hlimb, List.length_cons,
        ← add_mul_mod_pow_succ hlimb, val_cons, val_cons]
      congr 1
      omega

/-- One step of R70: a limb that goes below 0 takes 256 from the limbs above, and the borrow out says so. -/
theorem rippleSub_cons (x y : Limb) (as bs : Value) {c : Nat} (hc : c ≤ 1) :
    ∃ (l : Limb) (k : Nat), rippleSub (x :: as) (y :: bs) c = l :: rippleSub as bs k ∧ k ≤ 1 ∧
      l.toNat + y.toNat + c = x.toNat + 256 * k := by
  have hx := x.isLt
  have hy := y.isLt
  rw [rippleSub]
  split
  · refine ⟨_, 1, rfl, le_rfl, ?_⟩
    rw [BitVec.toNat_ofNat]
    omega
  · refine ⟨_, 0, rfl, Nat.zero_le 1, ?_⟩
    rw [BitVec.toNat_ofNat]
    omega

/-- R70, with a borrow in. -/
theorem val_rippleSub {a b : Value} (hlen : a.length = b.length) {c : Nat} (hc : c ≤ 1) :
    val (rippleSub a b c) = (256 ^ a.length + val a - val b - c) % 256 ^ a.length := by
  induction a generalizing b c with
  | nil => exact (Nat.mod_one _).symm
  | cons x as ih =>
    cases b with
    | nil => cases hlen
    | cons y bs =>
      have hlen' : as.length = bs.length := by simpa using hlen
      have hb : val bs < 256 ^ as.length := hlen' ▸ val_lt bs
      obtain ⟨l, k, hcons, hk, hlimb⟩ := rippleSub_cons x y as bs hc
      rw [hcons, val_cons, ih hlen' hk, ← add_mul_mod_pow_succ l.isLt, List.length_cons, val_cons, val_cons,
        Nat.pow_succ']
      congr 1
      omega

theorem val_complement (v : Value) : val (complement v) = 256 ^ v.length - 1 - val v := by
  induction v with
  | nil => rfl
  | cons l ls ih =>
    have hl := l.isLt
    have hls := val_lt ls
    have hcons : complement (l :: ls) = BitVec.ofNat 8 (255 - l.toNat) :: complement ls := rfl
    rw [hcons, val_cons, val_cons, ih, BitVec.toNat_ofNat, Nat.mod_eq_of_lt (by omega), List.length_cons, Nat.pow_succ']
    omega

/-- R73: complement, then INC's loop, is the additive inverse. -/
theorem val_increment_complement (v : Value) :
    val (increment (complement v)) = (256 ^ v.length - val v) % 256 ^ v.length := by
  have hv := val_lt v
  rw [val_increment, val_complement, length_complement]
  congr 1
  omega

/-! ### Inverses modulo m -/

theorem add_mod_sub_mod {x y m : Nat} (hx : x < m) (hy : y < m) : (m + (x + y) % m - y) % m = x := by
  by_cases h : x + y < m
  · rw [Nat.mod_eq_of_lt h, show m + (x + y) - y = m + x by omega, Nat.add_mod_left, Nat.mod_eq_of_lt hx]
  · have hwrap : (x + y) % m = x + y - m := by rw [Nat.mod_eq_sub_mod (by omega), Nat.mod_eq_of_lt (by omega)]
    rw [hwrap, show m + (x + y - m) - y = x by omega, Nat.mod_eq_of_lt hx]

theorem sub_sub_mod_mod {x m : Nat} (hx : x < m) : (m - (m - x) % m) % m = x := by
  by_cases h : x = 0
  · rw [h, Nat.sub_zero, Nat.mod_self, Nat.sub_zero, Nat.mod_self]
  · rw [Nat.mod_eq_of_lt (by omega : m - x < m), Nat.sub_sub_self hx.le, Nat.mod_eq_of_lt hx]

/-! ### Commands of one word that write one register -/

theorem computes_of_exec {i : Instr} {d : Reg} {v : Value} {n : Nat} {s : State}
    (hexec : exec i s = finish i (s.setReg d v)) (hwords : i.opcode.words = 1) (hval : val v = n)
    (hlen : v.length = s.limbs) : computes i d n s := by
  obtain ⟨t, hnext, hd, honly, hcp⟩ := finish_setReg_spec i d v s
  exact ⟨t, hexec.trans hnext, by rw [hd, hval], by rw [hd, hlen], honly, hwords ▸ hcp⟩

end Sys2Proof.Machine

namespace Sys2Proof

open Machine

/-- Settles O24: the loop's number for any carry in, at most 1 or not. -/
theorem rippleAddIsModularAddition : Obligations.RippleAddIsModularAddition := by
  unfold Obligations.RippleAddIsModularAddition
  intro a b carry hlen _
  exact ⟨length_rippleAdd a b carry hlen, by rw [val_rippleAdd hlen, pow_width]⟩

/-- Settles O25: each pair of loops has one length and one number. -/
theorem incDecNegAreRipples : Obligations.IncDecNegAreRipples := by
  unfold Obligations.IncDecNegAreRipples
  intro v one hlen hone
  have hzeros : v.length = (zeros v.length).length := (length_zeros _).symm
  refine ⟨val_inj ?_ ?_, val_inj ?_ ?_, val_inj ?_ ?_⟩
  · rw [length_increment, length_rippleAdd _ _ _ hzeros]
  · rw [val_increment, val_rippleAdd hzeros, val_zeros, Nat.add_zero]
  · rw [length_decrement, length_rippleSub _ _ _ hlen]
  · rw [val_decrement, val_rippleSub hlen (Nat.zero_le 1), hone, Nat.sub_zero]
  · rw [length_increment, length_complement, length_rippleSub _ _ _ hzeros.symm, length_zeros]
  · rw [val_increment_complement, val_rippleSub hzeros.symm (Nat.zero_le 1), val_zeros, length_zeros, Nat.add_zero,
      Nat.sub_zero]

/-- Settles O26: each side has one length, and one number below 256^N. -/
theorem additiveGroupLaws : Obligations.AdditiveGroupLaws := by
  unfold Obligations.AdditiveGroupLaws
  intro a b hlen
  have hadd : (rippleAdd a b 0).length = a.length := length_rippleAdd a b 0 hlen
  have hb : val b < 256 ^ a.length := hlen ▸ val_lt b
  refine ⟨val_inj ?_ ?_, val_inj ?_ ?_, val_inj ?_ ?_, val_inj ?_ ?_⟩
  · rw [length_rippleSub _ _ _ (hadd.trans hlen), hadd]
  · rw [val_rippleSub (hadd.trans hlen) (Nat.zero_le 1), val_rippleAdd hlen, hadd]
    exact add_mod_sub_mod (val_lt a) hb
  · rw [length_rippleSub _ _ _ rfl, length_zeros]
  · rw [val_rippleSub rfl (Nat.zero_le 1), val_zeros, Nat.add_sub_cancel, Nat.sub_zero, Nat.mod_self]
  · rw [hadd, length_rippleAdd _ _ _ hlen.symm, hlen]
  · rw [val_rippleAdd hlen, val_rippleAdd hlen.symm, hlen, Nat.add_comm (val a)]
  · simp only [length_increment, length_complement]
  · rw [val_increment_complement, val_increment_complement, length_increment, length_complement]
    exact sub_sub_mod_mod (val_lt a)

/-- Settles O15: ADD writes the ripple adder's value, without a carry in. -/
theorem addIsTheSumModuloTwoToTheW : Obligations.AddIsTheSumModuloTwoToTheW := by
  unfold Obligations.AddIsTheSumModuloTwoToTheW
  intro d a b s hregs
  have hlen : (s.reg a).length = (s.reg b).length := (hregs a).trans (hregs b).symm
  refine ⟨(encodesAs_packWord (i := .add d a b) rfl rfl :), computes_of_exec rfl rfl ?_ ?_⟩
  · rw [val_rippleAdd hlen, hregs, pow_width, Nat.add_zero]
  · rw [length_rippleAdd _ _ _ hlen, hregs]

/-- Settles O16: INC writes its loop's value. -/
theorem incAddsOneModuloTwoToTheW : Obligations.IncAddsOneModuloTwoToTheW := by
  unfold Obligations.IncAddsOneModuloTwoToTheW
  intro d a s hregs
  refine ⟨(encodesAs_packWord (i := .inc d a) rfl rfl :), computes_of_exec rfl rfl ?_ ?_⟩
  · rw [val_increment, hregs, pow_width]
  · rw [length_increment, hregs]

end Sys2Proof
end

section
/-! PROOFS of the family 42_subtractor.md: SUB, DEC and NEG each write their loop's value, whose number and length the
layers above give (R70 to R73). -/

namespace Sys2Proof

open Machine

/-- Settles O17: SUB writes the ripple subtractor's value, without a borrow in. -/
theorem subIsTheDifferenceModuloTwoToTheW : Obligations.SubIsTheDifferenceModuloTwoToTheW := by
  unfold Obligations.SubIsTheDifferenceModuloTwoToTheW
  intro d a b s hregs
  have hlen : (s.reg a).length = (s.reg b).length := (hregs a).trans (hregs b).symm
  refine ⟨(encodesAs_packWord (i := .sub d a b) rfl rfl :), computes_of_exec rfl rfl ?_ ?_⟩
  · rw [val_rippleSub hlen (Nat.zero_le 1), hregs, pow_width, Nat.sub_zero]
  · rw [length_rippleSub _ _ _ hlen, hregs]

/-- Settles O18: DEC writes its loop's value. -/
theorem decSubtractsOneModuloTwoToTheW : Obligations.DecSubtractsOneModuloTwoToTheW := by
  unfold Obligations.DecSubtractsOneModuloTwoToTheW
  intro d a s hregs
  refine ⟨(encodesAs_packWord (i := .dec d a) rfl rfl :), computes_of_exec rfl rfl ?_ ?_⟩
  · rw [val_decrement, hregs, pow_width]
  · rw [length_decrement, hregs]

/-- Settles O19: NEG writes INC's loop of the complement. -/
theorem negIsTheAdditiveInverse : Obligations.NegIsTheAdditiveInverse := by
  unfold Obligations.NegIsTheAdditiveInverse
  intro d a s hregs
  refine ⟨(encodesAs_packWord (i := .neg d a) rfl rfl :), computes_of_exec rfl rfl ?_ ?_⟩
  · rw [val_increment_complement, hregs, pow_width]
  · rw [length_increment, length_complement, hregs]

end Sys2Proof
end

section
/-! PROOFS of the family 43_multiplier.md. The two loops of Schoolbook as arithmetic modulo 256^N (spec/43_multiplier.md
R74), the inner one by induction on the limbs of the partial product and the outer one on those of the left operand; MUL
and the ring laws follow (R75). -/

namespace Sys2Proof.Machine

/-! ### The loops on numbers (R74) -/

/-- The inner loop adds x * b to the partial product: its lowest limb takes the low digit, the limbs above the carry. -/
theorem val_mulRow (x : Nat) {p b : Value} (hlen : p.length ≤ b.length) (c : Nat) :
    val (mulRow x p b c) = (val p + x * val b + c) % 256 ^ p.length := by
  induction p generalizing b c with
  | nil => exact (Nat.mod_one _).symm
  | cons l ps ih =>
    cases b with
    | nil => exact absurd hlen (Nat.not_succ_le_zero _)
    | cons y bs =>
      have hlimb : (c + l.toNat + x * y.toNat) % 256 < 256 := Nat.mod_lt _ (by decide)
      rw [mulRow, val_cons, ih (Nat.le_of_succ_le_succ hlen), BitVec.toNat_ofNat, Nat.mod_eq_of_lt hlimb,
        List.length_cons, ← add_mul_mod_pow_succ hlimb, val_cons, val_cons, Nat.mul_add x, Nat.mul_left_comm x]
      congr 1
      omega

/-- A row settles its lowest limb, and the rows after it work on the limbs above. -/
theorem mulRows_cons {x q : Limb} {as b p qs : Value} (hrow : mulRow x.toNat p b 0 = q :: qs) :
    mulRows (x :: as) b p = q :: mulRows as b qs := by simp only [mulRows, hrow]

/-- R74, the outer loop from any partial product. -/
theorem val_mulRows (a : Value) {b p : Value} (hlen : p.length ≤ b.length) :
    val (mulRows a b p) = (val p + val a * val b) % 256 ^ p.length := by
  induction a generalizing p with
  | nil => rw [mulRows, val_nil, Nat.zero_mul, Nat.add_zero, Nat.mod_eq_of_lt (val_lt p)]
  | cons x as ih =>
    cases p with
    | nil => exact (Nat.mod_one _).symm
    | cons l ps =>
      have hrowlen : (mulRow x.toNat (l :: ps) b 0).length = ps.length + 1 := length_mulRow _ _ _ _
      obtain ⟨q, qs, hrow⟩ := List.exists_cons_of_length_eq_add_one hrowlen
      have hqs : qs.length = ps.length := by simpa [hrow] using hrowlen
      have hrowval : q.toNat + 256 * val qs = (val (l :: ps) + x.toNat * val b) % 256 ^ (l :: ps).length := by
        rw [← val_cons, ← hrow, val_mulRow _ hlen, Nat.add_zero]
      calc val (mulRows (x :: as) b (l :: ps))
          = q.toNat + 256 * ((val qs + val as * val b) % 256 ^ qs.length) := by
            rw [mulRows_cons hrow, val_cons, ih (hqs ▸ Nat.le_of_succ_le hlen)]
        _ = (q.toNat + 256 * val qs + 256 * (val as * val b)) % 256 ^ (l :: ps).length := by
            rw [← add_mul_mod_pow_succ q.isLt, hqs, List.length_cons, Nat.mul_add, Nat.add_assoc]
        _ = (val (l :: ps) + val (x :: as) * val b) % 256 ^ (l :: ps).length := by
            rw [hrowval, Nat.mod_add_mod, val_cons x, Nat.add_mul, Nat.mul_assoc, Nat.add_assoc]

/-- R74 starts from N zero limbs, so only the product is left (R75). -/
theorem val_schoolbook {a b : Value} (hlen : a.length = b.length) :
    val (schoolbook a b) = val a * val b % 256 ^ a.length := by
  rw [schoolbook, val_mulRows a (by rw [length_zeros, hlen]), val_zeros, length_zeros, Nat.zero_add]

end Sys2Proof.Machine

namespace Sys2Proof

open Machine

/-- Settles O20: MUL writes Schoolbook's value. -/
theorem mulIsTheProductModuloTwoToTheW : Obligations.MulIsTheProductModuloTwoToTheW := by
  unfold Obligations.MulIsTheProductModuloTwoToTheW
  intro d a b s hregs
  have hlen : (s.reg a).length = (s.reg b).length := (hregs a).trans (hregs b).symm
  refine ⟨(encodesAs_packWord (i := .mul d a b) rfl rfl :), computes_of_exec rfl rfl ?_ ?_⟩
  · rw [val_schoolbook hlen, hregs, pow_width]
  · rw [length_schoolbook, hregs]

/-- Settles O27: each side has one length, and one number modulo 256^N. -/
theorem multiplierRingLaws : Obligations.MultiplierRingLaws := by
  unfold Obligations.MultiplierRingLaws
  intro a b c hab hbc
  have hsum : a.length = (rippleAdd b c 0).length := hab.trans (length_rippleAdd b c 0 hbc).symm
  have hproducts : (schoolbook a b).length = (schoolbook a c).length := by
    rw [length_schoolbook, length_schoolbook]
  refine ⟨val_inj ?_ ?_, val_inj ?_ ?_⟩
  · rw [length_schoolbook, length_schoolbook, hab]
  · rw [val_schoolbook hab, val_schoolbook hab.symm, hab, Nat.mul_comm]
  · rw [length_schoolbook, length_rippleAdd _ _ _ hproducts, length_schoolbook]
  · rw [val_schoolbook hsum, val_rippleAdd hbc, val_rippleAdd hproducts, val_schoolbook hab,
      val_schoolbook (hab.trans hbc), length_schoolbook, ← hab, Nat.mul_mod_mod, Nat.add_zero, Nat.add_zero,
      ← Nat.add_mod, Nat.mul_add]

end Sys2Proof
end

section
/-! PROOFS of the family 44_divider.md. The limbs of a value as its base-256 digits (spec/00_scope.md R5), the scan of the
comparator as the order of the numbers (spec/45_comparator.md R81), and on them the reference pipeline stage by stage
(spec/44_divider.md R77): scaling, the trial digit, one digit of the loop, the loop, unnormalization. Then R76 and DIVU,
REMU and DIVREM (R78 to R80). -/

namespace Sys2Proof.Machine

/-! ### The limbs of a value as the base-256 digits of its number (R5) -/

theorem eq_ofNat {v : Value} {n x : Nat} (hlen : v.length = n) (hval : val v = x) : v = ofNat n x := by
  rw [← hlen, ← hval, ofNat_val]

theorem val_cons_mod (l : Limb) (ls : Value) : val (l :: ls) % 256 = l.toNat := by
  rw [val_cons, Nat.add_mul_mod_self_left, Nat.mod_eq_of_lt l.isLt]

theorem val_cons_div (l : Limb) (ls : Value) : val (l :: ls) / 256 = val ls := by
  rw [val_cons, Nat.add_mul_div_left _ _ (by decide), Nat.div_eq_of_lt l.isLt, Nat.zero_add]

theorem val_take (k : Nat) (v : Value) : val (v.take k) = val v % 256 ^ k := by
  induction k generalizing v with
  | zero => exact (Nat.mod_one _).symm
  | succ k ih =>
    cases v with
    | nil => exact (Nat.zero_mod _).symm
    | cons l ls => rw [List.take_succ_cons, val_cons, ih, Nat.pow_succ', Nat.mod_mul, val_cons_mod, val_cons_div]

theorem val_drop (k : Nat) (v : Value) : val (v.drop k) = val v / 256 ^ k := by
  induction k generalizing v with
  | zero => exact (Nat.div_one _).symm
  | succ k ih =>
    cases v with
    | nil => exact (Nat.zero_div _).symm
    | cons l ls => rw [List.drop_succ_cons, ih, Nat.pow_succ', ← Nat.div_div_eq_div_mul, val_cons_div]

theorem limbAt_eq (v : Value) (k : Nat) : limbAt v k = val v / 256 ^ k % 256 := by
  induction k generalizing v with
  | zero =>
    rw [pow_zero, Nat.div_one]
    cases v with
    | nil => rfl
    | cons l ls => exact (val_cons_mod l ls).symm
  | succ k ih =>
    cases v with
    | nil => exact (congrArg (· % 256) (Nat.zero_div _)).symm
    | cons l ls => rw [Nat.pow_succ', ← Nat.div_div_eq_div_mul, val_cons_div]; exact ih ls

theorem limbAt_lt (v : Value) (k : Nat) : limbAt v k < 256 := (v.getD k 0#8).isLt

/-- A value from limb k up is limb k, then the value from limb k+1 up. -/
theorem val_div_pow (v : Value) (k : Nat) :
    val v / 256 ^ k = val v / 256 ^ (k + 1) * 256 + limbAt v k := by
  rw [limbAt_eq, Nat.pow_succ, ← Nat.div_div_eq_div_mul, Nat.div_add_mod']

theorem limbAt_top {v : Value} {k : Nat} (h : val v < 256 ^ (k + 1)) : limbAt v k = val v / 256 ^ k := by
  rw [val_div_pow, Nat.div_eq_of_lt h, Nat.zero_mul, Nat.zero_add]

theorem limbAt_mul_pow_le (v : Value) (k : Nat) : limbAt v k * 256 ^ k ≤ val v := calc
  limbAt v k * 256 ^ k ≤ val v / 256 ^ k * 256 ^ k := Nat.mul_le_mul_right _ (limbAt_eq v k ▸ Nat.mod_le _ _)
  _ ≤ val v := Nat.div_mul_le_self _ _

theorem ofNat_add_pow (n x : Nat) : ofNat n (x + 256 ^ n) = ofNat n x :=
  val_inj (by simp) (by rw [val_ofNat, val_ofNat, Nat.add_mod_right])

theorem length_padTo {n : Nat} {v : Value} (h : v.length ≤ n) : (padTo n v).length = n := by
  rw [padTo, List.length_append, length_zeros, Nat.add_sub_cancel' h]

theorem padTo_eq_ofNat {n x : Nat} {v : Value} (hlen : v.length ≤ n) (hval : val v = x) : padTo n v = ofNat n x :=
  eq_ofNat (length_padTo hlen) ((val_padTo n v).trans hval)

/-! ### The comparator (R81) -/

/-- Numbers with a high digit each: the high digits decide unless they are equal. -/
theorem compare_add_mul {x y p : Nat} (hx : x < p) (hy : y < p) (a b : Nat) :
    compare (x + p * a) (y + p * b) = if a < b then .lt else if a > b then .gt else compare x y := by
  split
  · next h =>
    have := Nat.mul_le_mul_left p h
    rw [Nat.mul_succ] at this
    exact Nat.compare_eq_lt.mpr (by omega)
  · next h =>
    split
    · next h' =>
      have := Nat.mul_le_mul_left p h'
      rw [Nat.succ_eq_add_one, Nat.mul_succ] at this
      exact Nat.compare_eq_gt.mpr (by omega)
    · next h' =>
      obtain rfl : a = b := by omega
      simp only [Nat.compare_eq_ite_lt, Nat.add_lt_add_iff_right]

theorem val_reverse_cons (l : Limb) (ls : Value) :
    val (l :: ls).reverse = val ls.reverse + 256 ^ ls.length * l.toNat := by
  rw [List.reverse_cons, val_append, List.length_reverse, val_cons, val_nil, Nat.mul_zero, Nat.add_zero]

theorem val_reverse_lt (ls : Value) : val ls.reverse < 256 ^ ls.length := by
  simpa using val_lt ls.reverse

/-- The first differing limb, from the top, decides between the numbers. -/
theorem scanLimbs_eq_compare {as bs : Value} (hlen : as.length = bs.length) :
    scanLimbs as bs = compare (val as.reverse) (val bs.reverse) := by
  induction as generalizing bs with
  | nil =>
    cases bs with
    | nil => rfl
    | cons b bs => cases hlen
  | cons a as ih =>
    cases bs with
    | nil => cases hlen
    | cons b bs =>
      have hlen' : as.length = bs.length := Nat.succ.inj hlen
      rw [scanLimbs, ih hlen', val_reverse_cons, val_reverse_cons, hlen',
        compare_add_mul (hlen' ▸ val_reverse_lt as) (val_reverse_lt bs)]

theorem compareValues_eq_compare {a b : Value} (hlen : a.length = b.length) :
    compareValues a b = compare (val a) (val b) := by
  rw [compareValues, scanLimbs_eq_compare (by simpa using hlen), List.reverse_reverse, List.reverse_reverse]

/-! ### Significant limbs, short division and scaling (R77 steps 1 and 2) -/

theorem val_lt_pow_sigLimbs (v : Value) : val v < 256 ^ sigLimbs v := by
  induction v with
  | nil => exact Nat.one_pos
  | cons l ls ih =>
    have hl := l.isLt
    rw [sigLimbs, val_cons]
    split
    · next h =>
      rw [h] at ih
      split
      · next h0 =>
        have hzero : l.toNat = 0 := congrArg BitVec.toNat h0
        omega
      · omega
    · next n h =>
      rw [h] at ih
      rw [Nat.pow_succ']
      omega

theorem pow_le_val_of_sigLimbs {v : Value} {k : Nat} (h : sigLimbs v = k + 1) : 256 ^ k ≤ val v := by
  induction v generalizing k with
  | nil => cases h
  | cons l ls ih =>
    rw [sigLimbs] at h
    rw [val_cons]
    split at h
    · next hls =>
      split at h
      · cases h
      · next hl =>
        have hpos : l.toNat ≠ 0 := fun h0 => hl (BitVec.eq_of_toNat_eq h0)
        obtain rfl : k = 0 := by omega
        omega
    · next n hn =>
      obtain rfl : k = n + 1 := by omega
      have := ih hn
      rw [Nat.pow_succ']
      omega

theorem sigLimbs_le_length (v : Value) : sigLimbs v ≤ v.length := by
  induction v with
  | nil => exact le_rfl
  | cons l ls ih =>
    rw [sigLimbs, List.length_cons]
    split
    · split <;> omega
    · omega

theorem val_take_sigLimbs (v : Value) : val (v.take (sigLimbs v)) = val v := by
  rw [val_take, Nat.mod_eq_of_lt (val_lt_pow_sigLimbs v)]

theorem length_take_sigLimbs (v : Value) : (v.take (sigLimbs v)).length = sigLimbs v :=
  List.length_take_of_le (sigLimbs_le_length v)

theorem sigLimbs_mono {v w : Value} (h : val v ≤ val w) : sigLimbs v ≤ sigLimbs w := by
  cases hv : sigLimbs v with
  | zero => exact Nat.zero_le _
  | succ k =>
    exact (Nat.pow_lt_pow_iff_right (by decide)).mp
      ((pow_le_val_of_sigLimbs hv).trans_lt (h.trans_lt (val_lt_pow_sigLimbs w)))

theorem exists_sigLimbs_of_ne_zero {v : Value} (h : val v ≠ 0) : ∃ k, sigLimbs v = k + 1 := by
  refine Nat.exists_eq_add_one_of_ne_zero fun h0 => ?_
  have := val_lt_pow_sigLimbs v
  rw [h0] at this
  omega

theorem length_shortDiv (v : Nat) (ls : Value) : (shortDiv v ls).1.length = ls.length := by
  induction ls with
  | nil => rfl
  | cons l ls ih => rw [shortDiv, List.length_cons, List.length_cons, ih]

/-- Short division is exact: the running remainder stays below the divisor, so each digit is one limb. -/
theorem shortDiv_spec {v : Nat} (hv : 0 < v) (ls : Value) :
    val (shortDiv v ls).1 = val ls / v ∧ (shortDiv v ls).2 = val ls % v := by
  induction ls with
  | nil => exact ⟨(Nat.zero_div v).symm, (Nat.zero_mod v).symm⟩
  | cons l ls ih =>
    obtain ⟨hq, hr⟩ := ih
    have hl := l.isLt
    have hrem : val ls % v < v := Nat.mod_lt _ hv
    have hdigit : (val ls % v * 256 + l.toNat) / v < 256 := (Nat.div_lt_iff_lt_mul hv).mpr (by omega)
    have hval : val (l :: ls) = val ls % v * 256 + l.toNat + v * (256 * (val ls / v)) := by
      rw [val_cons]
      conv_lhs => rw [← Nat.mod_add_div (val ls) v]
      ring
    rw [shortDiv, val_cons, hq, hr, BitVec.toNat_ofNat, Nat.mod_eq_of_lt hdigit, hval, Nat.add_mul_div_left _ _ hv,
      Nat.add_mul_mod_self_left]
    exact ⟨rfl, rfl⟩

theorem length_mulDigit (x : Nat) (v : Value) (c : Nat) : (mulDigit x v c).length = v.length + 1 := by
  induction v generalizing c with
  | nil => rfl
  | cons l ls ih => rw [mulDigit, List.length_cons, ih, List.length_cons]

/-- Scaling by a digit is exact: the carry fits a limb at every position, the last one too (C4). -/
theorem val_mulDigit {x : Nat} (hx : x ≤ 256) (v : Value) {c : Nat} (hc : c < 256) :
    val (mulDigit x v c) = val v * x + c := by
  induction v generalizing c with
  | nil =>
    rw [mulDigit, val_cons, BitVec.toNat_ofNat, Nat.mod_eq_of_lt hc, val_nil]
    omega
  | cons l ls ih =>
    have hl := l.isLt
    have hlow : (l.toNat * x + c) % 256 < 256 := Nat.mod_lt _ (by decide)
    have hcarry : (l.toNat * x + c) / 256 < 256 := by
      have : l.toNat * x ≤ 255 * 256 := Nat.mul_le_mul (by omega) hx
      omega
    rw [mulDigit, val_cons, ih hcarry, BitVec.toNat_ofNat, Nat.mod_eq_of_lt hlow, val_cons, Nat.add_mul,
      Nat.mul_assoc]
    omega

/-! ### The scale (R77 step 2, C3) -/

/-- The scale of a divisor whose top limb is t brings that limb into the upper half of its range. -/
theorem le_scale_mul_top {t : Nat} (h1 : 1 ≤ t) (h2 : t < 256) : 128 ≤ 256 / (t + 1) * t := by
  have hmod : 256 % (t + 1) ≤ t := Nat.lt_succ_iff.mp (Nat.mod_lt _ t.succ_pos)
  have hdiv : 256 / (t + 1) * (t + 1) + 256 % (t + 1) = 256 := Nat.div_add_mod' _ _
  have hpos : 1 ≤ 256 / (t + 1) := (Nat.one_le_div_iff t.succ_pos).mpr h2
  generalize 256 / (t + 1) = d at *
  have hcross : d + t ≤ d * t + 1 := by nlinarith
  rw [Nat.mul_succ] at hdiv
  omega

/-- The top significant limb of a non-zero divisor: at least 1, and the number is between its multiples. -/
theorem topLimb_bounds {b : Value} {k : Nat} (hk : sigLimbs b = k + 1) :
    1 ≤ limbAt b k ∧ limbAt b k * 256 ^ k ≤ val b ∧ val b < (limbAt b k + 1) * 256 ^ k := by
  have hpow : 0 < 256 ^ k := Nat.pow_pos (by decide)
  have hlt : val b < 256 ^ (k + 1) := hk ▸ val_lt_pow_sigLimbs b
  refine ⟨?_, limbAt_mul_pow_le b k, ?_⟩
  · rw [limbAt_top hlt]
    exact (Nat.one_le_div_iff hpow).mpr (pow_le_val_of_sigLimbs hk)
  · rw [limbAt_top hlt]
    exact Nat.lt_mul_of_div_lt (Nat.lt_succ_self _) hpow

theorem scaleOf_eq {b : Value} {k : Nat} (hk : sigLimbs b = k + 1) : scaleOf b = 256 / (limbAt b k + 1) := by
  rw [scaleOf, hk, Nat.add_sub_cancel]

theorem scaleOf_bounds {b : Value} (hb : val b ≠ 0) : 1 ≤ scaleOf b ∧ scaleOf b ≤ 128 := by
  obtain ⟨k, hk⟩ := exists_sigLimbs_of_ne_zero hb
  obtain ⟨hpos, -, -⟩ := topLimb_bounds hk
  rw [scaleOf_eq hk]
  exact ⟨(Nat.one_le_div_iff (Nat.succ_pos _)).mpr (limbAt_lt b k),
    Nat.div_le_div_left (by omega : 2 ≤ limbAt b k + 1) (by decide)⟩

theorem length_scaledDivisor (b : Value) : (scaledDivisor b).length = sigLimbs b := by
  rw [scaledDivisor, List.length_take_of_le]
  rw [length_mulDigit, length_take_sigLimbs]
  exact Nat.le_succ _

/-- The scaled divisor does not carry out of the divisor's significant limbs. -/
theorem val_scaledDivisor {b : Value} (hb : val b ≠ 0) : val (scaledDivisor b) = scaleOf b * val b := by
  obtain ⟨k, hk⟩ := exists_sigLimbs_of_ne_zero hb
  obtain ⟨-, -, htop⟩ := topLimb_bounds hk
  obtain ⟨hpos, hle⟩ := scaleOf_bounds hb
  have hfits : scaleOf b * val b < 256 ^ (k + 1) := calc
    scaleOf b * val b < scaleOf b * ((limbAt b k + 1) * 256 ^ k) := Nat.mul_lt_mul_of_pos_left htop hpos
    _ = scaleOf b * (limbAt b k + 1) * 256 ^ k := (Nat.mul_assoc _ _ _).symm
    _ ≤ 256 * 256 ^ k := Nat.mul_le_mul_right _ (scaleOf_eq hk ▸ Nat.div_mul_le_self _ _)
    _ = 256 ^ (k + 1) := Nat.pow_succ'.symm
  rw [scaledDivisor, val_take, val_mulDigit (by omega) _ (by decide), val_take_sigLimbs, Nat.add_zero,
    Nat.mul_comm, hk, Nat.mod_eq_of_lt hfits]

theorem topLimb_scaledDivisor {b : Value} (hb : val b ≠ 0) :
    128 ≤ limbAt (scaledDivisor b) (sigLimbs b - 1) := by
  obtain ⟨k, hk⟩ := exists_sigLimbs_of_ne_zero hb
  obtain ⟨hone, htop, -⟩ := topLimb_bounds hk
  have hlt : val (scaledDivisor b) < 256 ^ (k + 1) := by
    have := val_lt (scaledDivisor b)
    rwa [length_scaledDivisor, hk] at this
  rw [hk, Nat.add_sub_cancel, limbAt_top hlt, val_scaledDivisor hb, Nat.le_div_iff_mul_le (Nat.pow_pos (by decide))]
  calc 128 * 256 ^ k ≤ scaleOf b * limbAt b k * 256 ^ k :=
        Nat.mul_le_mul_right _ (scaleOf_eq hk ▸ le_scale_mul_top hone (limbAt_lt b k))
    _ = scaleOf b * (limbAt b k * 256 ^ k) := Nat.mul_assoc _ _ _
    _ ≤ scaleOf b * val b := Nat.mul_le_mul_left _ htop

theorem length_scaledDividend (a b : Value) : (scaledDividend a b).length = sigLimbs a + 1 := by
  rw [scaledDividend, length_mulDigit, length_take_sigLimbs]

theorem val_scaledDividend (a : Value) {b : Value} (hb : val b ≠ 0) :
    val (scaledDividend a b) = scaleOf b * val a := by
  have hle := (scaleOf_bounds hb).2
  rw [scaledDividend, val_mulDigit (by omega) _ (by decide), val_take_sigLimbs, Nat.add_zero, Nat.mul_comm]

/-! ### The trial digit (R77 step 3) -/

/-- Each pass adds vTop to rhat and the loop ends once rhat is 256 or more, so k + 1 passes are enough when
rhat + (k + 1) * vTop is. -/
theorem correctDigit_lowers (vTop vNext uNext : Nat) {passes qhat rhat k : Nat} (h : 256 ≤ rhat + (k + 1) * vTop) :
    qhat ≤ (correctDigit vTop vNext uNext passes qhat rhat).1 + (k + 1) ∧
      (correctDigit vTop vNext uNext passes qhat rhat).1 ≤ qhat := by
  induction passes generalizing qhat rhat k with
  | zero => exact ⟨Nat.le_add_right _ _, le_rfl⟩
  | succ passes ih =>
    rw [correctDigit]
    split
    · split
      · omega
      · next hgo =>
        cases k with
        | zero => omega
        | succ k =>
          have := ih (qhat := qhat - 1) (rhat := rhat + vTop) (k := k) (by rw [Nat.succ_mul] at h; omega)
          omega
    · omega

/-- The limb-sized digit t times y does not exceed x. -/
def digitFits (y x t : Nat) : Prop := t < 256 ∧ t * y ≤ x

section
variable {vTop vNext uNext num qhat rhat : Nat} (hdiv : num = qhat * vTop + rhat)
include hdiv

/-- What the loop tests is whether qhat fits the divisor's two top limbs in the window's three. -/
theorem digitFits_iff : digitFits (vTop * 256 + vNext) (num * 256 + uNext) qhat ↔
    qhat < 256 ∧ qhat * vNext ≤ rhat * 256 + uNext := by
  rw [digitFits, hdiv, Nat.mul_add, Nat.add_mul, ← Nat.mul_assoc]
  omega

/-- The loop's exit on rhat: from 256 on, qhat fits. -/
theorem digitFits_of_le_rhat (hnext : vNext < 256) (hnum : num < 256 * vTop + 256) (hrhat : 256 ≤ rhat) :
    digitFits (vTop * 256 + vNext) (num * 256 + uNext) qhat := by
  have hq : qhat < 256 := Nat.lt_of_mul_lt_mul_right (a := vTop) (by omega)
  have hproduct : qhat * vNext ≤ 255 * 255 := Nat.mul_le_mul (by omega) (by omega)
  exact (digitFits_iff hdiv).mpr ⟨hq, by omega⟩

/-- The corrected digit is the greatest that fits: a pass lowers only a digit that does not, and the loop ends at one that
does. -/
theorem correctDigit_isGreatest (hnext : vNext < 256) (hnum : num < 256 * vTop + 256) {passes : Nat}
    (hpasses : 256 ≤ rhat + passes * vTop)
    (hbound : qhat ∈ upperBounds {t | digitFits (vTop * 256 + vNext) (num * 256 + uNext) t}) :
    IsGreatest {t | digitFits (vTop * 256 + vNext) (num * 256 + uNext) t}
      (correctDigit vTop vNext uNext passes qhat rhat).1 := by
  induction passes generalizing qhat rhat with
  | zero => exact ⟨digitFits_of_le_rhat hdiv hnext hnum (by omega), hbound⟩
  | succ passes ih =>
    rw [correctDigit]
    split
    · next hlow =>
      have hqhat : qhat ≠ 0 := by
        rintro rfl
        simp at hlow
      obtain ⟨q, rfl⟩ := Nat.exists_eq_add_one_of_ne_zero hqhat
      have hdiv' : num = q * vTop + (rhat + vTop) := by rw [hdiv, Nat.succ_mul]; omega
      have hbound' : q ∈ upperBounds {t | digitFits (vTop * 256 + vNext) (num * 256 + uNext) t} := by
        refine fun t ht => Nat.lt_succ_iff.mp (lt_of_le_of_ne (hbound ht) ?_)
        rintro rfl
        have := (digitFits_iff hdiv).mp ht
        omega
      rw [Nat.add_sub_cancel]
      split
      · next hend => exact ⟨digitFits_of_le_rhat hdiv' hnext hnum hend, hbound'⟩
      · exact ih hdiv' (by rw [Nat.succ_mul] at hpasses; omega) hbound'
    · next hdone =>
      obtain ⟨hq, hle⟩ := not_or.mp hdone
      exact ⟨(digitFits_iff hdiv).mpr ⟨Nat.not_le.mp hq, Nat.not_lt.mp hle⟩, hbound⟩

end

/-- Multiply, subtract and add back: a trial digit that is the quotient's or one more gives the quotient's digit and the
remainder (R77 step 4). -/
theorem mulSubtract_eq {v w : Value} {qhat : Nat} (hle : val w / val v ≤ qhat) (hle' : qhat ≤ val w / val v + 1)
    (hv : val v ≠ 0) : mulSubtract v w qhat = (val w / val v, ofNat (v.length + 1) (val w % val v)) := by
  have hrem : val w % val v < val v := Nat.mod_lt _ (Nat.pos_of_ne_zero hv)
  have hdiv : val w / val v * val v + val w % val v = val w := Nat.div_add_mod' _ _
  have hpow : 256 ^ (v.length + 1) = 256 * 256 ^ v.length := Nat.pow_succ'
  have hlt := val_lt v
  generalize val w / val v = q at *
  generalize val w % val v = r at *
  obtain rfl | rfl : qhat = q ∨ qhat = q + 1 := by omega
  · have ht : (val w : Int) - ((qhat * val v : Nat) : Int) = (r : Int) := by omega
    simp only [mulSubtract, ht, Int.toNat_natCast, if_neg (Int.not_lt.mpr (Int.natCast_nonneg r))]
  · have ht : (val w : Int) - (((q + 1) * val v : Nat) : Int) = (r : Int) - (val v : Int) := by
      rw [Nat.succ_mul]; omega
    have hback : ((r : Int) - (val v : Int) + ((256 ^ (v.length + 1) : Nat) : Int)).toNat + val v
        = r + 256 ^ (v.length + 1) := by omega
    simp only [mulSubtract, ht, if_pos (show (r : Int) - (val v : Int) < 0 by omega), hback, ofNat_add_pow,
      Nat.add_sub_cancel]

/-- A digit that fits when y and x are cut at p is at most one too large for y and x. -/
theorem mul_le_add_of_digitFits_div {t x y p : Nat} (hp : 0 < p) (hfits : digitFits (y / p) (x / p) t)
    (hsmall : t * p ≤ y) : t * y ≤ x + y := calc
  t * y ≤ t * (y / p * p + p) := Nat.mul_le_mul_left _ (Nat.lt_div_mul_add hp).le
  _ = t * (y / p) * p + t * p := by rw [Nat.mul_add, Nat.mul_assoc]
  _ ≤ x + y := Nat.add_le_add ((Nat.mul_le_mul_right p hfits.2).trans (Nat.div_mul_le_self x p)) hsmall

section
variable {v w : Value} {k : Nat} (hv : v.length = k + 2) (hw : w.length = k + 3) (htop : 128 ≤ limbAt v (k + 1))
  (hlt : val w < 256 * val v)
include hv hw htop hlt

/-- The trial digit is the greatest that fits the divisor's two top limbs in the window's three. -/
theorem trialDigit_isGreatest :
    IsGreatest {t | digitFits (val v / 256 ^ k) (val w / 256 ^ k) t} (trialDigit v w) := by
  have hpow : 0 < 256 ^ (k + 1) := Nat.pow_pos (by decide)
  have hvtop : limbAt v (k + 1) = val v / 256 ^ (k + 1) := limbAt_top (hv ▸ val_lt v :)
  have hnum : limbAt w (k + 2) * 256 + limbAt w (k + 1) = val w / 256 ^ (k + 1) := by
    rw [val_div_pow w (k + 1), limbAt_top (hw ▸ val_lt w :)]
  rw [val_div_pow v, val_div_pow w, ← hvtop, ← hnum, trialDigit, hv, show k + 2 - 1 = k + 1 from rfl]
  refine correctDigit_isGreatest (Nat.div_add_mod' _ _).symm (limbAt_lt v k) ?_ ?_ fun t ht => ?_
  · rw [hnum, Nat.div_lt_iff_lt_mul hpow]
    calc val w < 256 * val v := hlt
      _ ≤ 256 * (val v / 256 ^ (k + 1) * 256 ^ (k + 1) + 256 ^ (k + 1)) :=
        Nat.mul_le_mul_left 256 (Nat.lt_div_mul_add hpow).le
      _ = (256 * limbAt v (k + 1) + 256) * 256 ^ (k + 1) := by rw [hvtop]; ring
  · exact (Nat.mul_le_mul_left 256 (Nat.one_le_of_lt htop)).trans (Nat.le_add_left _ _)
  · obtain ⟨-, hfits⟩ := ht
    have hnext := limbAt_lt w k
    rw [Nat.mul_add, ← Nat.mul_assoc] at hfits
    exact (Nat.le_div_iff_mul_le (Nat.zero_lt_of_lt htop)).mpr (by omega)

/-- The trial digit is the window's digit of the quotient, or one more. -/
theorem trialDigit_bounds : val w / val v ≤ trialDigit v w ∧ trialDigit v w ≤ val w / val v + 1 := by
  obtain ⟨hfits, hgreatest⟩ := trialDigit_isGreatest hv hw htop hlt
  have hpow : 0 < 256 ^ k := Nat.pow_pos (by decide)
  have hpos : 0 < val v := by omega
  constructor
  · refine hgreatest ⟨(Nat.div_lt_iff_lt_mul hpos).mpr hlt, ?_⟩
    rw [Nat.le_div_iff_mul_le hpow, Nat.mul_assoc]
    exact (Nat.mul_le_mul_left _ (Nat.div_mul_le_self _ _)).trans (Nat.div_mul_le_self _ _)
  · have hsmall : trialDigit v w * 256 ^ k ≤ val v := calc
      trialDigit v w * 256 ^ k ≤ limbAt v (k + 1) * 256 * 256 ^ k :=
        Nat.mul_le_mul_right _ (hfits.1.le.trans (Nat.le_mul_of_pos_left _ (Nat.zero_lt_of_lt htop)))
      _ = limbAt v (k + 1) * 256 ^ (k + 1) := by rw [Nat.mul_assoc, ← Nat.pow_succ']
      _ ≤ val v := limbAt_mul_pow_le v (k + 1)
    rw [← Nat.sub_le_iff_le_add, Nat.le_div_iff_mul_le hpos, Nat.sub_mul, Nat.one_mul, Nat.sub_le_iff_le_add]
    exact mul_le_add_of_digitFits_div hpow hfits hsmall

/-- Steps 3 and 4 for one digit are the division of the window. -/
theorem mulSubtract_trialDigit :
    mulSubtract v w (trialDigit v w) = (val w / val v, ofNat (v.length + 1) (val w % val v)) := by
  obtain ⟨hle, hle'⟩ := trialDigit_bounds hv hw htop hlt
  exact mulSubtract_eq hle hle' (by omega)

end

/-! ### The digit loop (R77 steps 3 to 5) -/

/-- The working remainder after the digit at limb j: what was above limb j is divided by v and its remainder is left. -/
def reduceFrom (v u : Value) (j : Nat) : Value :=
  u.take j ++ ofNat (v.length + 1) (val u / 256 ^ j % val v) ++ u.drop (j + (v.length + 1))

theorem length_reduceFrom {v u : Value} {j : Nat} (hlen : j + 1 + v.length ≤ u.length) :
    (reduceFrom v u j).length = u.length := by
  rw [reduceFrom, List.length_append, List.length_append, List.length_take_of_le (by omega), length_ofNat,
    List.length_drop]
  omega

section
variable {v u : Value} {j : Nat} (hlt : val u / 256 ^ (j + 1) < val v)
include hlt

/-- With less than the divisor above limb j, the quotient from limb j up is one digit. -/
theorem div_pow_lt_mul_val : val u / 256 ^ j < 256 * val v := by
  have hlimb := limbAt_lt u j
  rw [val_div_pow]
  omega

/-- The limbs from j up are all in the window of n+1 limbs. -/
theorem div_pow_lt_window : val u / 256 ^ j < 256 ^ (v.length + 1) := by
  rw [Nat.pow_succ']
  exact (div_pow_lt_mul_val hlt).trans (Nat.mul_lt_mul_of_pos_left (val_lt v) (by decide))

theorem val_reduceFrom (hlen : j + 1 + v.length ≤ u.length) :
    val (reduceFrom v u j) = val u % 256 ^ j + 256 ^ j * (val u / 256 ^ j % val v) := by
  have hwindow := div_pow_lt_window hlt
  have habove : val (u.drop (j + (v.length + 1))) = 0 := by
    rw [val_drop, Nat.pow_add, ← Nat.div_div_eq_div_mul, Nat.div_eq_of_lt hwindow]
  rw [reduceFrom, List.append_assoc, val_append, val_append, habove, val_take, List.length_take_of_le (by omega),
    val_ofNat, Nat.mod_eq_of_lt ((Nat.mod_le _ _).trans_lt hwindow), Nat.mul_zero, Nat.add_zero]

/-- The round takes the digit's multiple of the shifted divisor off the working remainder. -/
theorem val_eq_val_reduceFrom_add (hlen : j + 1 + v.length ≤ u.length) :
    val u = val (reduceFrom v u j) + val v * (256 ^ j * (val u / 256 ^ j / val v)) := by
  rw [val_reduceFrom hlt hlen]
  calc val u = val u % 256 ^ j + 256 ^ j * (val u / 256 ^ j % val v + val v * (val u / 256 ^ j / val v)) := by
        rw [Nat.mod_add_div (val u / 256 ^ j), Nat.mod_add_div]
    _ = _ := by ring

/-- Less than the divisor is left from limb j up. -/
theorem val_reduceFrom_div_pow_lt (hlen : j + 1 + v.length ≤ u.length) :
    val (reduceFrom v u j) / 256 ^ j < val v := by
  have hpow : 0 < 256 ^ j := Nat.pow_pos (by decide)
  rw [val_reduceFrom hlt hlen, Nat.add_mul_div_left _ _ hpow, Nat.div_eq_of_lt (Nat.mod_lt _ hpow), Nat.zero_add]
  exact Nat.mod_lt _ (Nat.zero_lt_of_lt hlt)

end

section
variable {v : Value} {k : Nat} (hv : v.length = k + 2) (htop : 128 ≤ limbAt v (k + 1))
include hv htop

/-- One round of the loop finds the digit and reduces the working remainder. -/
theorem divLoop_succ {j : Nat} {u : Value} (q : Value) (hlen : j + 1 + v.length ≤ u.length)
    (hlt : val u / 256 ^ (j + 1) < val v) : divLoop v (j + 1) u q =
      divLoop v j (reduceFrom v u j) (BitVec.ofNat 8 (val u / 256 ^ j / val v) :: q) := by
  have hwlen : ((u.drop j).take (v.length + 1)).length = k + 3 := by
    rw [List.length_take_of_le (by rw [List.length_drop]; omega), hv]
  have hwval : val ((u.drop j).take (v.length + 1)) = val u / 256 ^ j := by
    rw [val_take, val_drop, Nat.mod_eq_of_lt (div_pow_lt_window hlt)]
  rw [divLoop, mulSubtract_trialDigit hv hwlen htop (hwval ▸ div_pow_lt_mul_val hlt), hwval, reduceFrom]

/-- The loop's digits are the quotient of the working remainder, and what it leaves of it is the remainder. -/
theorem divLoop_spec (count : Nat) {u : Value} (q : Value) (hlen : count + v.length ≤ u.length)
    (hlt : val u / 256 ^ count < val v) :
    ∃ ds u', divLoop v count u q = (ds ++ q, u') ∧ ds.length = count ∧ val ds = val u / val v ∧
      val u' = val u % val v := by
  have hpos : 0 < val v := Nat.zero_lt_of_lt hlt
  induction count generalizing u q with
  | zero =>
    rw [Nat.pow_zero, Nat.div_one] at hlt
    exact ⟨[], u, rfl, rfl, (Nat.div_eq_of_lt hlt).symm, (Nat.mod_eq_of_lt hlt).symm⟩
  | succ j ih =>
    have hdigit : val u / 256 ^ j / val v < 256 := (Nat.div_lt_iff_lt_mul hpos).mpr (div_pow_lt_mul_val hlt)
    have hval := val_eq_val_reduceFrom_add hlt hlen
    have hround := divLoop_succ hv htop q hlen hlt
    have hlen' : j + v.length ≤ (reduceFrom v u j).length := by rw [length_reduceFrom hlen]; omega
    generalize val u / 256 ^ j / val v = digit at *
    obtain ⟨ds, u', hloop, hds, hquot, hrem⟩ := ih (BitVec.ofNat 8 digit :: q) hlen' (val_reduceFrom_div_pow_lt hlt hlen)
    refine ⟨ds ++ [BitVec.ofNat 8 digit], u', ?_, ?_, ?_, ?_⟩
    · rw [hround, hloop, List.append_assoc, List.singleton_append]
    · rw [List.length_append, hds, List.length_singleton]
    · rw [val_append, hquot, hds, hval, Nat.add_mul_div_left _ _ hpos, val_cons, val_nil, BitVec.toNat_ofNat,
        Nat.mod_eq_of_lt hdigit, Nat.mul_zero, Nat.add_zero]
    · rw [hrem, hval, Nat.add_mul_mod_self_left]

end

/-! ### The whole pipeline (R76, R77) -/

/-- The loop runs on the scaled operands, whose quotient is that of the operands and whose remainder is the scale times
theirs. -/
theorem divLoop_scaled {a b : Value} {k : Nat} (hb : val b ≠ 0) (hle : val b ≤ val a) (hk : sigLimbs b = k + 2) :
    ∃ ds u, divLoop (scaledDivisor b) (sigLimbs a - sigLimbs b + 1) (scaledDividend a b) [] = (ds, u) ∧
      ds.length = sigLimbs a - sigLimbs b + 1 ∧ val ds = val a / val b ∧
      val (u.take (sigLimbs b)) = scaleOf b * (val a % val b) := by
  have hscale : 0 < scaleOf b := (scaleOf_bounds hb).1
  have hmono := sigLimbs_mono hle
  have hlt : val (scaledDividend a b) / 256 ^ (sigLimbs a - sigLimbs b + 1) < val (scaledDivisor b) := by
    rw [Nat.div_lt_iff_lt_mul (Nat.pow_pos (by decide)), val_scaledDividend a hb, val_scaledDivisor hb, Nat.mul_assoc]
    refine Nat.mul_lt_mul_of_pos_left ?_ hscale
    calc val a < 256 ^ sigLimbs a := val_lt_pow_sigLimbs a
      _ = 256 ^ (k + 1) * 256 ^ (sigLimbs a - sigLimbs b + 1) := by rw [← Nat.pow_add]; congr 1; omega
      _ ≤ val b * 256 ^ (sigLimbs a - sigLimbs b + 1) := Nat.mul_le_mul_right _ (pow_le_val_of_sigLimbs hk)
  obtain ⟨ds, u, hloop, hds, hquot, hrem⟩ := divLoop_spec ((length_scaledDivisor b).trans hk)
    (by simpa [hk] using topLimb_scaledDivisor hb) (sigLimbs a - sigLimbs b + 1) (u := scaledDividend a b) []
    (by rw [length_scaledDivisor, length_scaledDividend]; omega) hlt
  rw [val_scaledDividend a hb, val_scaledDivisor hb] at hquot hrem
  rw [List.append_nil] at hloop
  refine ⟨ds, u, hloop, hds, ?_, ?_⟩
  · rw [hquot, Nat.mul_div_mul_left _ _ hscale]
  · have hfits : val (scaledDivisor b) < 256 ^ sigLimbs b := length_scaledDivisor b ▸ val_lt _
    rw [val_scaledDivisor hb] at hfits
    rw [val_take, hrem, Nat.mul_mod_mul_left, Nat.mod_eq_of_lt]
    exact (Nat.mul_lt_mul_of_pos_left (Nat.mod_lt _ (Nat.pos_of_ne_zero hb)) hscale).trans hfits

/-- A divisor of one significant limb: short division (R77, n = 1). -/
theorem shortDiv_eq_divMod {a b : Value} (hb : val b ≠ 0) (hn : sigLimbs b = 1) :
    (padTo a.length (shortDiv (limbAt b 0) (a.take (sigLimbs a))).1,
      ofNat a.length (shortDiv (limbAt b 0) (a.take (sigLimbs a))).2) = divMod a b := by
  have hlimb : limbAt b 0 = val b := by
    rw [limbAt_top (hn ▸ val_lt_pow_sigLimbs b :), Nat.pow_zero, Nat.div_one]
  obtain ⟨hquot, hrem⟩ := shortDiv_spec (Nat.pos_of_ne_zero hb) (a.take (sigLimbs a))
  rw [val_take_sigLimbs] at hquot hrem
  rw [hlimb, hrem, padTo_eq_ofNat _ hquot, divMod]
  exact (length_shortDiv _ _).trans_le ((length_take_sigLimbs a).trans_le (sigLimbs_le_length a))

section
variable {a b : Value} (hlen : a.length = b.length) (hb : val b ≠ 0)
include hlen hb

/-- A longer divisor: the loop's digits are the quotient, and short division by the scale unnormalizes the remainder. -/
theorem divLoop_eq_divMod (hle : val b ≤ val a) (hn : sigLimbs b ≠ 1) {qu : Value × Value}
    (hqu : divLoop (scaledDivisor b) (sigLimbs a - sigLimbs b + 1) (scaledDividend a b) [] = qu) :
    (padTo a.length qu.1, padTo a.length (shortDiv (scaleOf b) (qu.2.take (sigLimbs b))).1) = divMod a b := by
  have hsiga := sigLimbs_le_length a
  have hsigb := sigLimbs_le_length b
  obtain ⟨k, hk⟩ := exists_sigLimbs_of_ne_zero hb
  obtain ⟨k, rfl⟩ := Nat.exists_eq_add_one_of_ne_zero (n := k) (by omega)
  obtain ⟨ds, u, hloop, hds, hquot, hscaled⟩ := divLoop_scaled hb hle hk
  obtain rfl : (ds, u) = qu := hloop.symm.trans hqu
  have hscale : 0 < scaleOf b := (scaleOf_bounds hb).1
  have hrem := (shortDiv_spec hscale (u.take (sigLimbs b))).1
  rw [hscaled, Nat.mul_div_cancel_left _ hscale] at hrem
  rw [padTo_eq_ofNat (by omega) hquot, padTo_eq_ofNat _ hrem, divMod]
  exact (length_shortDiv _ _).trans_le ((List.length_take_le _ _).trans (by omega))

/-- The fast path of R77 is divMod too: the quotient is 0 and the remainder the dividend. -/
theorem divRef_eq_divMod : divRef a b = divMod a b := by
  have hcompare := compareValues_eq_compare hlen
  obtain hlt | hle := Nat.lt_or_ge (val a) (val b)
  · rw [divRef, hcompare, Nat.compare_eq_lt.mpr hlt, divMod, Nat.div_eq_of_lt hlt, Nat.mod_eq_of_lt hlt, ofNat_val,
      ← eq_ofNat (length_zeros _) (val_zeros _)]
  · have hne : compareValues a b ≠ .lt := hcompare ▸ Nat.compare_ne_lt.mpr hle
    rw [divRef]
    split
    · next h => exact absurd h hne
    all_goals
      split
      · next hn => exact shortDiv_eq_divMod hb hn
      · next hn => exact divLoop_eq_divMod hlen hb hle hn rfl

end

/-! ### The quotient and the remainder (R76) -/

theorem val_divMod (a b : Value) : val (divMod a b).1 = val a / val b ∧ val (divMod a b).2 = val a % val b := by
  have ha := val_lt a
  have hquot : val a / val b ≤ val a := Nat.div_le_self _ _
  have hrem : val a % val b ≤ val a := Nat.mod_le _ _
  rw [divMod, val_ofNat, val_ofNat, Nat.mod_eq_of_lt (hquot.trans_lt ha), Nat.mod_eq_of_lt (hrem.trans_lt ha)]
  exact ⟨rfl, rfl⟩

/-- (a / b) * b + (a % b) = a on the limbs, by the units of MUL and ADD. -/
theorem rippleAdd_schoolbook_divMod {a b : Value} (hlen : a.length = b.length) :
    rippleAdd (schoolbook (divMod a b).1 b) (divMod a b).2 0 = a := by
  obtain ⟨hquot, hrem⟩ := val_divMod a b
  obtain ⟨hlenq, hlenr⟩ := length_divMod a b
  have hlenp : (schoolbook (divMod a b).1 b).length = (divMod a b).2.length := by
    rw [length_schoolbook, hlenq, hlenr]
  refine val_inj ?_ ?_
  · rw [length_rippleAdd _ _ _ hlenp, hlenp, hlenr]
  · rw [val_rippleAdd hlenp, val_schoolbook (hlenq.trans hlen), hlenp, hlenr, hlenq, hquot, hrem, Nat.add_zero,
      Nat.mod_add_mod, Nat.div_add_mod', Nat.mod_eq_of_lt (val_lt a)]

/-! ### The commands (R78 to R80) -/

theorem trapsWith_of_exec {i : Instr} {c : Cause} {s : State} (h : exec i s = raiseTrap c i s) : trapsWith i c s := by
  rw [trapsWith, h]
  exact raiseTrap_spec c i s

/-- DIVREM's two register writes, of which the second, to C ≠ D, keeps the first. -/
theorem exec_divrem {d c : Reg} (hdc : d ≠ c) (a : Reg) {b : Reg} {s : State} (hb : val (s.reg b) ≠ 0) :
    ∃ t, exec (.divrem d c a b) s = .next t ∧ t.reg d = (divMod (s.reg a) (s.reg b)).1 ∧
      t.reg c = (divMod (s.reg a) (s.reg b)).2 ∧ onlyRegs [d, c] s t ∧ completedBy 1 s t := by
  refine ⟨_, (if_neg hdc).trans (if_neg hb), ?_, ?_, ⟨fun r hr => ?_, rfl, rfl, rfl, rfl, rfl, rfl, rfl, rfl⟩, rfl⟩
  · rw [reg_advance, reg_setReg_of_ne _ hdc, reg_setReg_same]
  · rw [reg_advance, reg_setReg_same]
  · obtain ⟨hd, hc⟩ : r ≠ d ∧ r ≠ c := by simpa using hr
    rw [reg_advance, reg_setReg_of_ne _ hc, reg_setReg_of_ne _ hd]

end Sys2Proof.Machine

namespace Sys2Proof

theorem decode_divrem_same (d a b : Reg) (rest : List Word) :
    decode (Instr.divrem d d a b).commandWord rest = .illegal .sameDestination := by
  obtain ⟨hop, hrsv, hunused, -⟩ := fieldLayout (.divrem d d a b)
  rw [decode_of_fields (by rw [hop]; exact ofCode_code _) hrsv hunused]
  simp [Instr.opcode, Instr.commandWord, decodeOperands]

open Machine

/-- Settles O28: quotient and remainder are at most the dividend, so N limbs hold them. -/
theorem divModPostcondition : Obligations.DivModPostcondition := by
  unfold Obligations.DivModPostcondition
  intro a b _ hb
  obtain ⟨hquot, hrem⟩ := val_divMod a b
  obtain ⟨hlenq, hlenr⟩ := length_divMod a b
  rw [hquot, hrem]
  refine ⟨rfl, (Nat.div_add_mod' _ _).symm, Nat.mod_lt _ (Nat.pos_of_ne_zero hb), Nat.div_le_self _ _, hlenq, hlenr,
    fun hlt => ⟨Nat.div_eq_of_lt hlt, val_inj hlenr ?_⟩⟩
  rw [hrem, Nat.mod_eq_of_lt hlt]

/-- Settles O29: the fast path, short division and the normalized loop each divide exactly; the loop's trial digit is the
window's digit of the quotient or one more, which the add-back mends, and scaling both operands keeps the quotient. -/
theorem referencePipelineIsDivMod : Obligations.ReferencePipelineIsDivMod := by
  unfold Obligations.ReferencePipelineIsDivMod
  intro a b hlen hb
  exact divRef_eq_divMod hlen hb

/-- Settles O30: the scale times top + 1 is at most 256, and the scale times top at least 128. -/
theorem scaledDivisorIsNormalized : Obligations.ScaledDivisorIsNormalized := by
  unfold Obligations.ScaledDivisorIsNormalized
  intro b hb
  obtain ⟨hpos, hle⟩ := scaleOf_bounds hb
  exact ⟨hpos, hle, length_scaledDivisor b, val_scaledDivisor hb, topLimb_scaledDivisor hb⟩

/-- Settles O31: two passes bring rhat to 2 * 128 or more. -/
theorem trialDigitLoweredAtMostTwice : Obligations.TrialDigitLoweredAtMostTwice := by
  unfold Obligations.TrialDigitLoweredAtMostTwice
  intro vTop vNext uNext passes qhat rhat htop
  exact correctDigit_lowers vTop vNext uNext (k := 1) (by omega)

/-- Settles O21: DIVU is the trap or one register write, of the quotient. -/
theorem divuIsTheQuotientOrTraps : Obligations.DivuIsTheQuotientOrTraps := by
  unfold Obligations.DivuIsTheQuotientOrTraps
  intro d a b s hregs
  refine ⟨(encodesAs_packWord (i := .divu d a b) rfl rfl :), fun hb => trapsWith_of_exec (if_pos hb),
    fun hb => computes_of_exec (if_neg hb) rfl (val_divMod _ _).1 ?_⟩
  rw [(length_divMod _ _).1, hregs]

/-- Settles O22: REMU is the trap or one register write, of the remainder. -/
theorem remuIsTheRemainderOrTraps : Obligations.RemuIsTheRemainderOrTraps := by
  unfold Obligations.RemuIsTheRemainderOrTraps
  intro d a b s hregs
  refine ⟨(encodesAs_packWord (i := .remu d a b) rfl rfl :), fun hb => trapsWith_of_exec (if_pos hb),
    fun hb => computes_of_exec (if_neg hb) rfl (val_divMod _ _).2 ?_⟩
  rw [(length_divMod _ _).2, hregs]

/-- Settles O23: with D = C the decoder's last check fails; else DIVREM is the trap or two writes of the old operands'
quotient and remainder. -/
theorem divremIsBothOrTraps : Obligations.DivremIsBothOrTraps := by
  unfold Obligations.DivremIsBothOrTraps
  intro d c a b s hregs
  refine ⟨(encodesAs_packWord (i := .divrem d c a b) rfl rfl :), ?_, fun hdc hb => ?_, fun hdc hb => ?_⟩
  · rintro rfl ws
    exact decode_divrem_same d a b ws
  · exact trapsWith_of_exec ((if_neg hdc).trans (if_pos hb))
  · obtain ⟨t, hexec, hd, hc, honly, hcp⟩ := exec_divrem hdc a hb
    obtain ⟨hquot, hrem⟩ := val_divMod (s.reg a) (s.reg b)
    obtain ⟨hlenq, hlenr⟩ := length_divMod (s.reg a) (s.reg b)
    rw [← hd] at hquot hlenq
    rw [← hc] at hrem hlenr
    exact ⟨t, hexec, hquot, hrem, hlenq.trans (hregs a), hlenr.trans (hregs a), honly, hcp⟩

/-- Settles O32: B keeps the divisor through DIVREM, and R the remainder through MUL, so ADD sums q * b and r. -/
theorem divremThenMulAddGivesTheDividend : Obligations.DivremThenMulAddGivesTheDividend := by
  unfold Obligations.DivremThenMulAddGivesTheDividend
  intro q r p a b s hregs hqr hqb hrb hpr hb
  obtain ⟨s1, hdiv, hq, hr, honly1, hcp1⟩ := exec_divrem hqr a hb
  obtain ⟨s2, hmul, hp, honly2, hcp2⟩ := finish_setReg_spec (.mul p q b) p (schoolbook (s1.reg q) (s1.reg b)) s1
  obtain ⟨s3, hadd, hp', -, hcp3⟩ := finish_setReg_spec (.add p p r) p (rippleAdd (s2.reg p) (s2.reg r) 0) s2
  have hb1 : s1.reg b = s.reg b := honly1.1 b (by simp [hqb.symm, hrb.symm])
  have hr2 : s2.reg r = s1.reg r := honly2.1 r (by simpa using hpr.symm)
  refine ⟨s1, s2, s3, hdiv, hmul, hadd, ?_, completedBy_trans (completedBy_trans hcp1 hcp2) hcp3⟩
  rw [hp', hp, hr2, hq, hr, hb1]
  have hlen : (s.reg a).length = (s.reg b).length := (hregs a).trans (hregs b).symm
  exact rippleAdd_schoolbook_divMod hlen

end Sys2Proof
end

section
/-! PROOFS of the family 45_comparator.md. The limb scan as the order of the numbers and CMP's flags as its outcome
(spec/45_comparator.md R81, R82), the relations a host reads off them (R83), and every command as a function of the
value registers and N alone (R83; spec/60_exceptions.md R95, R97). -/

namespace Sys2Proof.Machine

/-! ### The flags of CMP (R81, R82) -/

theorem compareValues_iff {a b : Value} (hlen : a.length = b.length) :
    (compareValues a b = .eq ↔ val a = val b) ∧ (compareValues a b = .lt ↔ val a < val b) ∧
      (compareValues a b = .gt ↔ val b < val a) := by
  rw [compareValues_eq_compare hlen]
  exact ⟨Nat.compare_eq_eq, Nat.compare_eq_lt, Nat.compare_eq_gt⟩

theorem reserved_setFlags (w : Word) (o : Ordering) :
    (Status.setFlags w o).getLsbD 3 = false ∧ (Status.setFlags w o).extractLsb' 10 22 = 0#22 :=
  reserved_pack _ _ _ _ _

theorem flags_setFlags_compareValues {a b : Value} (hlen : a.length = b.length) (s : State) :
    (s.setFlags (compareValues a b)).flags =
      (decide (val a = val b), decide (val a < val b), decide (val b < val a)) := by
  obtain ⟨heq, hlt, hgt⟩ := compareValues_iff hlen
  simp only [flags_setFlags, beq_eq_decide, heq, hlt, hgt]

/-- R82, as a function of the numbers. -/
theorem flags_of_exec_cmp {a b : Reg} {s t : State} (hregs : s.regsWf) (h : exec (.cmp a b) s = .next t) :
    t.flags = (decide (val (s.reg a) = val (s.reg b)), decide (val (s.reg a) < val (s.reg b)),
      decide (val (s.reg b) < val (s.reg a))) := by
  rw [exec_cmp] at h
  cases h
  exact flags_setFlags_compareValues ((hregs a).trans (hregs b).symm) s

/-! ### The relations (R83) -/

/-- The relation of two numbers that a reading stands for. -/
def Relation.holds (r : Relation) (x y : Nat) : Bool :=
  match r with
  | .eq => decide (x = y)
  | .ne => decide (x ≠ y)
  | .lt => decide (x < y)
  | .gt => decide (y < x)
  | .le => decide (x ≤ y)
  | .ge => decide (y ≤ x)

/-- One of the three flags is set, and LE and GE are the two-flag readings. -/
theorem read_of_flags {s : State} {x y : Nat} (h : s.flags = (decide (x = y), decide (x < y), decide (y < x)))
    (r : Relation) : r.read s.status = some (r.holds x y) := by
  obtain ⟨heq, hlt, hgt⟩ : Status.eq s.status = decide (x = y) ∧ Status.lt s.status = decide (x < y) ∧
      Status.gt s.status = decide (y < x) := by simpa only [State.flags, Prod.mk.injEq] using h
  have hset : (decide (x = y) || decide (x < y) || decide (y < x)) = true := by
    simpa only [Bool.or_eq_true, decide_eq_true_eq, or_assoc, or_left_comm] using lt_trichotomy x y
  simp only [Relation.read, heq, hlt, hgt, hset, if_true]
  cases r with
  | eq => rfl
  | ne => exact congrArg some decide_not.symm
  | lt => rfl
  | gt => rfl
  | le => exact congrArg some ((Bool.decide_or _ _).symm.trans (decide_eq_decide.mpr (by omega)))
  | ge => exact congrArg some ((Bool.decide_or _ _).symm.trans (decide_eq_decide.mpr (by omega)))

theorem read_of_no_flag {s : State} (h : s.flags = (false, false, false)) (r : Relation) : r.read s.status = none := by
  obtain ⟨heq, hlt, hgt⟩ : Status.eq s.status = false ∧ Status.lt s.status = false ∧ Status.gt s.status = false := by
    simpa only [State.flags, Prod.mk.injEq] using h
  simp [Relation.read, heq, hlt, hgt]

/-! ### Commands as functions of the value registers and N (R83, R95, R97) -/

/-- The value registers and CFG of s, with everything else as in c. -/
def State.withControl (s c : State) : State := { c with regs := s.regs, cfg := s.cfg }

theorem eq_withControl {s c : State} (hregs : s.regs = c.regs) (hcfg : s.cfg = c.cfg) : c = s.withControl c := by
  rw [State.withControl, hregs, hcfg]

/-- The answers r in state s and r' in state s' to the command i leave the same value registers, from equal draw
counters equal ones, and both complete i or both stop at it in the same way. -/
def sameOutcome (i : Instr) (s s' : State) (r r' : Result) : Prop :=
  ∃ t t', r = .next t ∧ r' = .next t' ∧ t.regs = t'.regs ∧ (s.draws = s'.draws → t.draws = t'.draws) ∧
    ((completed i s t ∧ completed i s' t') ∨
      ∃ run cause, run ≠ .ready ∧ cause ≠ .none ∧
        stoppedWith run cause i.commandWord s t ∧ stoppedWith run cause i.commandWord s' t')

/-- The meaning f of the command i has the same outcome whatever the state holds beside value registers and CFG. -/
def ignoresControl (i : Instr) (f : State → Result) : Prop :=
  ∀ s c : State, sameOutcome i s (s.withControl c) (f s) (f (s.withControl c))

/-- A choice made by a guard that reads value registers and CFG alone. -/
theorem ignoresControl_ite {i : Instr} {p : State → Prop} [∀ s, Decidable (p s)] {f g : State → Result}
    (hp : ∀ s c, p (s.withControl c) ↔ p s) (hf : ignoresControl i f) (hg : ignoresControl i g) :
    ignoresControl i fun s => if p s then f s else g s := by
  intro s c
  by_cases h : p s
  · simpa only [hp, if_pos h] using hf s c
  · simpa only [hp, if_neg h] using hg s c

section
variable (i : Instr)

theorem ignoresControl_enter {run : RunState} {cause : Cause} (hrun : run ≠ .ready) (hcause : cause ≠ .none) :
    ignoresControl i fun s => .next (s.enter run cause i.commandWord) := fun s _ =>
  ⟨_, _, rfl, rfl, rfl, id, .inr ⟨run, cause, hrun, hcause, stoppedWith_enter _ _ _ s, stoppedWith_enter _ _ _ _⟩⟩

theorem ignoresControl_raiseTrap {cause : Cause} (hcause : cause ≠ .none) : ignoresControl i (raiseTrap cause i) :=
  ignoresControl_enter i (by decide) hcause

theorem ignoresControl_raiseHalt {cause : Cause} (hcause : cause ≠ .none) : ignoresControl i (raiseHalt cause i) :=
  ignoresControl_enter i (by decide) hcause

/-- An update that leaves CP, the trap record and the draws, and computes its registers from registers and CFG. -/
theorem ignoresControl_finish {u : State → State}
    (hframe : ∀ s, (u s).cp = s.cp ∧ (u s).run = s.run ∧ (u s).cause = s.cause ∧ sameRecord s (u s))
    (hdraws : ∀ s, (u s).draws = s.draws) (hregs : ∀ s c, (u s).regs = (u (s.withControl c)).regs) :
    ignoresControl i fun s => finish i (u s) := by
  have hdone (s : State) : completed i s ((u s).advance i.opcode.words) := by
    obtain ⟨hcp, hrun, hcause, hrec⟩ := hframe s
    exact completed_advance i s hcp hrun hcause hrec
  intro s c
  refine ⟨_, _, finish_eq i _, finish_eq i _, hregs s c, fun h => ?_, .inl ⟨hdone s, hdone _⟩⟩
  rw [draws_advance, draws_advance, hdraws, hdraws, h]

theorem ignoresControl_setReg (d : Reg) {v : State → Value} (hv : ∀ s c, v s = v (s.withControl c)) :
    ignoresControl i fun s => finish i (s.setReg d (v s)) :=
  ignoresControl_finish i (fun _ => ⟨rfl, rfl, rfl, rfl, rfl, rfl, rfl, rfl⟩) (fun _ => rfl)
    fun s c => congrArg (fun v => s.regs.set d.val v) (hv s c)

theorem ignoresControl_widenU (d : Reg) {S : Nat} (lit : BitVec S) : ignoresControl i (widenU i d lit) :=
  ignoresControl_ite (fun _ _ => .rfl) (ignoresControl_raiseHalt i (by decide))
    (ignoresControl_setReg i d fun _ _ => rfl)

theorem ignoresControl_widenS (d : Reg) {S : Nat} (lit : BitVec S) : ignoresControl i (widenS i d lit) :=
  ignoresControl_ite (fun _ _ => .rfl) (ignoresControl_raiseHalt i (by decide))
    (ignoresControl_ite (fun _ _ => .rfl) (ignoresControl_raiseHalt i (by decide))
      (ignoresControl_setReg i d fun _ _ => rfl))

/-- The shape of DIVU, REMU and DIVREM: a zero divisor traps (R78 to R80). -/
theorem ignoresControl_division (b : Reg) {f : State → Result} (hf : ignoresControl i f) :
    ignoresControl i fun s => if val (s.reg b) = 0 then raiseTrap .divByZero i s else f s :=
  ignoresControl_ite (fun _ _ => .rfl) (ignoresControl_raiseTrap i (by decide)) hf

end

/-- XFER alone reads more: the draw counter. -/
theorem ignoresControl_exec {i : Instr} (hi : ∀ d a, i ≠ .xfer d a) : ignoresControl i (exec i) := by
  cases i with
  | xfer d a => exact absurd rfl (hi d a)
  | ldu8 d lit => exact ignoresControl_widenU _ d lit
  | ldu16 d lit => exact ignoresControl_widenU _ d lit
  | ldu32 d lit => exact ignoresControl_widenU _ d lit
  | ldu64 d lit => exact ignoresControl_widenU _ d lit
  | lds8 d lit => exact ignoresControl_widenS _ d lit
  | lds16 d lit => exact ignoresControl_widenS _ d lit
  | lds32 d lit => exact ignoresControl_widenS _ d lit
  | lds64 d lit => exact ignoresControl_widenS _ d lit
  | divu d a b => exact ignoresControl_division _ b (ignoresControl_setReg _ d fun _ _ => rfl)
  | remu d a b => exact ignoresControl_division _ b (ignoresControl_setReg _ d fun _ _ => rfl)
  | divrem d c a b =>
    exact ignoresControl_ite (fun _ _ => .rfl) (ignoresControl_raiseHalt _ (by decide))
      (ignoresControl_division _ b (ignoresControl_finish _ (fun _ => ⟨rfl, rfl, rfl, rfl, rfl, rfl, rfl, rfl⟩)
        (fun _ => rfl) fun _ _ => rfl))
  | cmp a b =>
    exact ignoresControl_finish _ (fun s => ⟨rfl, run_setFlags s _, cause_setFlags s _, rfl, rfl, rfl, rfl, rfl⟩)
      (fun _ => rfl) fun _ _ => rfl
  | render a =>
    exact ignoresControl_finish _ (fun _ => ⟨rfl, rfl, rfl, rfl, rfl, rfl, rfl, rfl⟩) (fun _ => rfl) fun _ _ => rfl
  | zero d | mov d | add d | inc d | sub d | dec d | neg d | mul d =>
    exact ignoresControl_setReg _ d fun _ _ => rfl

theorem completed_xfer (d a : Reg) (s : State) :
    completed (.xfer d a) s (((s.setReg d (s.reg a)).setReg a s.drawValue).drawn.advance 1) :=
  completed_advance (.xfer d a) s rfl rfl rfl ⟨rfl, rfl, rfl, rfl, rfl⟩

/-- At equal draw counters XFER takes the same draw (log 2). -/
theorem sameOutcome_xfer (d a : Reg) {s c : State} (hdraws : s.draws = c.draws) :
    sameOutcome (.xfer d a) s (s.withControl c) (exec (.xfer d a) s) (exec (.xfer d a) (s.withControl c)) := by
  have hvalue : s.drawValue = (s.withControl c).drawValue :=
    congrArg (fun n => (List.range s.limbs).map (Config.drawLimb n)) hdraws
  refine ⟨_, _, exec_xfer d a s, exec_xfer d a _, ?_, congrArg (· + 1),
    .inl ⟨completed_xfer d a s, completed_xfer d a _⟩⟩
  exact congrArg (fun v => ((s.setReg d (s.reg a)).setReg a v).regs) hvalue

theorem exec_sameOutcome {i : Instr} {s s' : State} (hregs : s.regs = s'.regs) (hcfg : s.cfg = s'.cfg)
    (hdraws : ∀ d a, i = .xfer d a → s.draws = s'.draws) : sameOutcome i s s' (exec i s) (exec i s') := by
  rw [eq_withControl hregs hcfg]
  by_cases hxfer : ∃ d a, i = .xfer d a
  · obtain ⟨d, a, rfl⟩ := hxfer
    exact sameOutcome_xfer d a (hdraws d a rfl)
  · exact ignoresControl_exec (fun d a h => hxfer ⟨d, a, h⟩) s s'

theorem reg_eq_of_regs {s s' : State} (h : s.regs = s'.regs) (r : Reg) : s.reg r = s'.reg r :=
  congrArg (fun regs : Vector Value 16 => regs[r.val]) h

/-- CMP's flags are read off the registers, even where their lengths differ. -/
theorem exec_cmp_same_flags {a b : Reg} {s s' t t' : State} (hregs : s.regs = s'.regs)
    (h : exec (.cmp a b) s = .next t) (h' : exec (.cmp a b) s' = .next t') : t.flags = t'.flags := by
  rw [exec_cmp] at h h'
  cases h
  cases h'
  rw [flags_advance, flags_advance, flags_setFlags, flags_setFlags, reg_eq_of_regs hregs, reg_eq_of_regs hregs]

theorem exec_render_same_text {a : Reg} {s s' t t' : State} (hregs : s.regs = s'.regs)
    (h : exec (.render a) s = .next t) (h' : exec (.render a) s' = .next t') : t.rtext = t'.rtext := by
  rw [exec_render] at h h'
  cases h
  cases h'
  exact congrArg render (reg_eq_of_regs hregs a)

end Sys2Proof.Machine

namespace Sys2Proof

open Machine

/-- Settles O34: the scan is the order of the numbers. -/
theorem compareIsTheUnsignedOrder : Obligations.CompareIsTheUnsignedOrder := by
  unfold Obligations.CompareIsTheUnsignedOrder
  intro a b hlen
  exact compareValues_iff hlen

/-- Settles O33: CMP writes STATUS alone, and of STATUS the flags of the numbers' order. -/
theorem cmpSetsExactlyTheRightFlag : Obligations.CmpSetsExactlyTheRightFlag := by
  unfold Obligations.CmpSetsExactlyTheRightFlag
  intro a b s hregs
  obtain ⟨hlow, hhigh⟩ := reserved_setFlags s.status (compareValues (s.reg a) (s.reg b))
  exact ⟨(encodesAs_packWord (i := .cmp a b) rfl rfl :), _, exec_cmp a b s, flags_of_exec_cmp hregs (exec_cmp a b s),
    cause_setFlags s _, run_setFlags s _, hlow, hhigh, rfl, rfl, rfl, ⟨rfl, rfl, rfl, rfl, rfl⟩, rfl⟩

/-- Settles O35: CMP leaves the flags of the numbers' order, so each reading is its relation. -/
theorem relationsReadOffTheFlags : Obligations.RelationsReadOffTheFlags := by
  unfold Obligations.RelationsReadOffTheFlags
  refine ⟨fun a b s t hregs hexec => ?_, fun r s hnone => read_of_no_flag hnone r⟩
  have hread := read_of_flags (flags_of_exec_cmp hregs hexec)
  exact ⟨hread .eq, hread .ne, hread .lt, hread .gt, hread .le, hread .ge⟩

/-- Settles O54: the outcome by registers and CFG; flags and text by who writes them (O49, O38). -/
theorem resultsIgnoreControlState : Obligations.ResultsIgnoreControlState := by
  unfold Obligations.ResultsIgnoreControlState
  intro i s s' hregs hcfg hdraws
  obtain ⟨t, t', ht, ht', hregs', hdraws', hends⟩ := exec_sameOutcome hregs hcfg hdraws
  obtain ⟨-, hflags, -⟩ := flagsWrittenOnlyByCmp
  obtain ⟨htext, -⟩ := textWrittenOnlyByRender
  refine ⟨t, t', ht, ht', hregs', hdraws', ?_, fun hi => ⟨hflags i s t hi ht, hflags i s' t' hi ht'⟩, ?_,
    fun hi => ⟨htext i s t hi ht, htext i s' t' hi ht'⟩, hends⟩
  · rintro a b rfl
    exact exec_cmp_same_flags hregs ht ht'
  · rintro a rfl
    exact exec_render_same_text hregs ht ht'

end Sys2Proof
end

section
/-! PROOFS of the family 46_renderer.md. The text of RENDER as the hex numeral of the value: each stage of R85 keeps the
number, and the number bounds the length since the first digit is not "0" (spec/46_renderer.md R84 to R86). -/

namespace Sys2Proof.Machine

/-! ### The digits of a numeral (R84) -/

@[simp] theorem hexCharValue_hexDigit (h : BitVec 4) : hexCharValue (hexDigit h) = h.toNat := by
  revert h; decide

theorem hexCharValue_lt {c : Byte} (h : isHexChar c) : hexCharValue c < 16 := by
  unfold hexCharValue isHexChar at *
  split <;> omega

theorem hexCharValue_pos {c : Byte} (h : isHexChar c) (hc : c ≠ charZero) : 1 ≤ hexCharValue c := by
  have hne : c.toNat ≠ 0x30 := fun heq => hc (BitVec.eq_of_toNat_eq heq)
  unfold hexCharValue isHexChar at *
  split <;> omega

theorem limb_eq_nibbles (l : Limb) : 16 * (l.extractLsb' 4 4).toNat + (l.extractLsb' 0 4).toNat = l.toNat := by
  have hlt := l.isLt
  simp only [BitVec.extractLsb'_toNat, Nat.shiftRight_eq_div_pow]
  omega

/-! ### The number of a numeral (R85) -/

theorem numeralValue_eq_ofDigits (t : List Byte) : numeralValue t = Nat.ofDigits 16 (t.reverse.map hexCharValue) := by
  rw [numeralValue, Nat.ofDigits_eq_foldr, List.foldr_map, List.foldr_reverse]
  simp [Nat.add_comm]

theorem numeralValue_append_hexLimb (t : List Byte) (l : Limb) :
    numeralValue (t ++ hexLimb l) = 256 * numeralValue t + l.toNat := by
  have hlimb := limb_eq_nibbles l
  simp only [numeralValue, hexLimb, List.foldl_append, List.foldl_cons, List.foldl_nil, hexCharValue_hexDigit]
  omega

theorem numeralValue_cons (c : Byte) (t : List Byte) :
    numeralValue (c :: t) = numeralValue t + 16 ^ t.length * hexCharValue c := by
  simp [numeralValue_eq_ofDigits, Nat.ofDigits_append]

@[simp] theorem numeralValue_charZero_cons (t : List Byte) : numeralValue (charZero :: t) = numeralValue t := rfl

theorem numeralValue_lt {t : List Byte} (h : ∀ c ∈ t, isHexChar c) : numeralValue t < 16 ^ t.length := by
  have hdigits : ∀ x ∈ t.reverse.map hexCharValue, x < 16 := by
    simpa using fun c hc => hexCharValue_lt (h c hc)
  simpa [numeralValue_eq_ofDigits] using Nat.ofDigits_lt_base_pow_length (by decide) hdigits

theorem pow_le_numeralValue {c : Byte} {t : List Byte} (h : isHexChar c) (hc : c ≠ charZero) :
    16 ^ t.length ≤ numeralValue (c :: t) := by
  rw [numeralValue_cons]
  exact (Nat.le_mul_of_pos_right _ (hexCharValue_pos h hc)).trans (Nat.le_add_left _ _)

/-! ### Each stage of Render keeps the number (R85) -/

theorem hexText_cons (l : Limb) (ls : Value) : hexText (l :: ls) = hexText ls ++ hexLimb l := by
  simp [hexText]

theorem numeralValue_hexText (v : Value) : numeralValue (hexText v) = val v := by
  induction v with
  | nil => rfl
  | cons l ls ih => rw [hexText_cons, numeralValue_append_hexLimb, ih, val_cons, Nat.add_comm]

theorem numeralValue_stripPairs (t : List Byte) : numeralValue (stripPairs t) = numeralValue t := by
  induction t using stripPairs.induct with
  | case1 x y z s hzero ih =>
    obtain ⟨rfl, rfl⟩ := hzero
    rw [stripPairs, if_pos ⟨rfl, rfl⟩, ih]
    rfl
  | case2 x y z s hzero => rw [stripPairs, if_neg hzero]
  | case3 => rfl
  | case4 x => rfl
  | case5 x y => rfl

theorem numeralValue_stripNibble (t : List Byte) : numeralValue (stripNibble t) = numeralValue t := by
  unfold stripNibble
  split
  · next h => subst h; rfl
  · split
    · rfl
    · next c cs _ =>
      split
      · next h => subst h; rfl
      · rfl

theorem numeralValue_render (v : Value) : numeralValue (render v) = val v := by
  rw [render, numeralValue_stripNibble, numeralValue_stripPairs, numeralValue_hexText]

/-! ### The number decides the length (R85) -/

/-- The text is the one digit of zero, or it starts with another digit. -/
theorem render_eq_zero_or_cons {v : Value} (hv : v ≠ []) :
    render v = [charZero] ∨ ∃ c t, render v = c :: t ∧ c ≠ charZero := by
  obtain ⟨hpos, -, -, hhead⟩ := render_canonical hv
  obtain ⟨c, t, heq⟩ := List.exists_cons_of_length_pos hpos
  rw [heq] at hhead ⊢
  by_cases hc : c = charZero
  · have ht : t = [] := by
      by_contra ht
      exact hhead (by simpa using List.length_pos_iff.mpr ht) (by simp [hc])
    exact .inl (by rw [hc, ht])
  · exact .inr ⟨c, t, rfl, hc⟩

/-- Of a value with limbs, either the number is 0 and the text is "0", or the first digit gives the number its size. -/
theorem render_zero_or_pow_le {v : Value} (hv : v ≠ []) :
    (val v = 0 ∧ render v = [charZero]) ∨ (val v ≠ 0 ∧ 16 ^ ((render v).length - 1) ≤ val v) := by
  obtain ⟨-, -, hhex, -⟩ := render_canonical hv
  have hval := numeralValue_render v
  obtain heq | ⟨c, t, heq, hc⟩ := render_eq_zero_or_cons hv
  · rw [heq] at hval
    exact .inl ⟨hval.symm, heq⟩
  · have hle : 16 ^ t.length ≤ val v := by
      rw [← hval, heq]
      exact pow_le_numeralValue (hhex c (by simp [heq])) hc
    refine .inr ⟨(Nat.pow_pos (by decide)).trans_le hle |>.ne', ?_⟩
    simpa [heq] using hle

end Sys2Proof.Machine

namespace Sys2Proof

open Machine

/-- Settles O36: every stage keeps the number, and the first digit of the canonical text bounds it from below. -/
theorem renderIsTheMinimalHexNumeral : Obligations.RenderIsTheMinimalHexNumeral := by
  unfold Obligations.RenderIsTheMinimalHexNumeral
  intro v hv
  obtain ⟨hone, hmax, hhex, -⟩ := render_canonical hv
  have hlt : val v < 16 ^ (render v).length := numeralValue_render v ▸ numeralValue_lt hhex
  refine ⟨numeralValue_render v, hhex, hmax, hlt, fun hzero => ?_, fun hne => ⟨hone, ?_⟩⟩
  · obtain ⟨-, htext⟩ | ⟨hne, -⟩ := render_zero_or_pow_le hv
    · exact htext
    · exact absurd hzero hne
  · obtain ⟨hzero, -⟩ | ⟨-, hle⟩ := render_zero_or_pow_le hv
    · exact absurd hzero hne
    · exact hle

/-- Settles O37: RENDER sets the text and CP alone. -/
theorem renderReplacesTheWholeText : Obligations.RenderReplacesTheWholeText := by
  unfold Obligations.RenderReplacesTheWholeText
  intro a s
  exact ⟨(encodesAs_packWord (i := .render a) rfl rfl :), _, exec_render a s, rfl, rfl, rfl, rfl, rfl,
    ⟨rfl, rfl, rfl, rfl, rfl⟩, rfl⟩

end Sys2Proof
end

section
/-! PROOFS of the family 60_exceptions.md. The table of causes as a relation and what a command does by it (R87 to R90),
the stopped block (R89, R93), and RESUME (R92). -/

namespace Sys2Proof.Machine

/-! ### Which command raises which cause (R87, R90) -/

/-- The rows of R87 that a well-formed command raises: its condition in state s, the run state entered and the cause. -/
inductive Raises (i : Instr) (s : State) : RunState → Cause → Prop
  | divByZero {b : Reg} (hdiv : divisorOf i = some b) (hzero : val (s.reg b) = 0) : Raises i s .trapped .divByZero
  | contractWidth {S : Nat} (hsrc : sourceWidth i = some S) (hwide : 8 * s.limbs < S) :
      Raises i s .halted .contractWidth
  | contractNegative {S : Nat} (hsrc : sourceWidth i = some S) (hfits : S ≤ 8 * s.limbs) (hneg : negativeSource i) :
      Raises i s .halted .contractNegative

/-- No literal form is a division. -/
theorem divisorOf_of_sourceWidth {i : Instr} {S : Nat} (h : sourceWidth i = some S) : divisorOf i = none := by
  cases i
  case ldu8 | ldu16 | ldu32 | ldu64 | lds8 | lds16 | lds32 | lds64 => rfl
  case zero | mov | xfer | add | inc | sub | dec | neg | mul | divu | remu | divrem | cmp | render => cases h

section
variable {i : Instr} {s : State}

theorem raises_trapped_iff : Raises i s .trapped .divByZero ↔ ∃ b, divisorOf i = some b ∧ val (s.reg b) = 0 :=
  ⟨fun | .divByZero hdiv hzero => ⟨_, hdiv, hzero⟩, fun ⟨_, hdiv, hzero⟩ => .divByZero hdiv hzero⟩

theorem raises_contractWidth_iff :
    Raises i s .halted .contractWidth ↔ ∃ S, sourceWidth i = some S ∧ 8 * s.limbs < S :=
  ⟨fun | .contractWidth hsrc hwide => ⟨_, hsrc, hwide⟩, fun ⟨_, hsrc, hwide⟩ => .contractWidth hsrc hwide⟩

theorem raises_contractNegative_iff : Raises i s .halted .contractNegative ↔
    ∃ S, sourceWidth i = some S ∧ S ≤ 8 * s.limbs ∧ negativeSource i :=
  ⟨fun | .contractNegative hsrc hfits hneg => ⟨_, hsrc, hfits, hneg⟩,
    fun ⟨_, hsrc, hfits, hneg⟩ => .contractNegative hsrc hfits hneg⟩

theorem cause_of_raises_trapped {c : Cause} (h : Raises i s .trapped c) : c = .divByZero := by
  cases h with
  | divByZero => rfl

theorem cause_of_raises_halted {c : Cause} (h : Raises i s .halted c) :
    c = .contractWidth ∨ c = .contractNegative := by
  cases h with
  | contractWidth => exact .inl rfl
  | contractNegative => exact .inr rfl

theorem run_ne_ready_of_raises {run : RunState} {c : Cause} (h : Raises i s run c) : run ≠ .ready := by
  cases h <;> decide

/-- Only a literal form can halt, and its width either fits or does not, so at most one row applies. -/
theorem raises_unique {run run' : RunState} {c c' : Cause} (h : Raises i s run c) (h' : Raises i s run' c') :
    run = run' ∧ c = c' := by
  have hdisjoint {b : Reg} {S : Nat} (hdiv : divisorOf i = some b) (hsrc : sourceWidth i = some S) : False := by
    cases hdiv.symm.trans (divisorOf_of_sourceWidth hsrc)
  have hoverlap {S S' : Nat} (hsrc : sourceWidth i = some S) (hsrc' : sourceWidth i = some S')
      (hwide : 8 * s.limbs < S) (hfits : S' ≤ 8 * s.limbs) : False := by
    cases hsrc.symm.trans hsrc'
    exact absurd hwide hfits.not_gt
  cases h with
  | divByZero hdiv =>
    cases h' with
    | divByZero => exact ⟨rfl, rfl⟩
    | contractWidth hsrc => exact (hdisjoint hdiv hsrc).elim
    | contractNegative hsrc => exact (hdisjoint hdiv hsrc).elim
  | contractWidth hsrc hwide =>
    cases h' with
    | divByZero hdiv => exact (hdisjoint hdiv hsrc).elim
    | contractWidth => exact ⟨rfl, rfl⟩
    | contractNegative hsrc' hfits => exact (hoverlap hsrc hsrc' hwide hfits).elim
  | contractNegative hsrc hfits =>
    cases h' with
    | divByZero hdiv => exact (hdisjoint hdiv hsrc).elim
    | contractWidth hsrc' hwide => exact (hoverlap hsrc' hsrc hwide hfits).elim
    | contractNegative => exact ⟨rfl, rfl⟩

end

/-! ### What each command does by the table -/

/-- The answer r to the command i in state s: a row of the table applies and is entered, or none does and RUN stays. -/
def followsTable (i : Instr) (s : State) (r : Result) : Prop :=
  (∃ run cause, Raises i s run cause ∧ r = .next (s.enter run cause i.commandWord)) ∨
    (∀ run cause, ¬ Raises i s run cause) ∧ ∃ t, r = .next t ∧ t.run = s.run

section
variable {i : Instr} {s : State}

theorem followsTable_raise {run : RunState} {cause : Cause} (h : Raises i s run cause) :
    followsTable i s (.next (s.enter run cause i.commandWord)) :=
  .inl ⟨run, cause, h, rfl⟩

theorem followsTable_finish {u : State} (hdiv : ∀ b, divisorOf i = some b → val (s.reg b) ≠ 0)
    (hsrc : ∀ S, sourceWidth i = some S → S ≤ 8 * s.limbs ∧ ¬ negativeSource i) (hrun : u.run = s.run) :
    followsTable i s (finish i u) := by
  refine .inr ⟨fun run cause h => ?_, _, finish_eq i u, hrun⟩
  cases h with
  | divByZero hb hzero => exact hdiv _ hb hzero
  | contractWidth hS hwide => exact hwide.not_ge (hsrc _ hS).1
  | contractNegative hS _ hneg => exact (hsrc _ hS).2 hneg

/-- A command that is no division and no literal form completes. -/
theorem followsTable_plain {u : State} (hdiv : divisorOf i = none) (hsrc : sourceWidth i = none)
    (hrun : u.run = s.run) : followsTable i s (finish i u) :=
  followsTable_finish (by simp [hdiv]) (by simp [hsrc]) hrun

theorem followsTable_division {b : Reg} {u : State} (hdiv : divisorOf i = some b) (hsrc : sourceWidth i = none)
    (hrun : u.run = s.run) :
    followsTable i s (if val (s.reg b) = 0 then raiseTrap .divByZero i s else finish i u) := by
  split
  · next hzero => exact followsTable_raise (.divByZero hdiv hzero)
  · next hne => exact followsTable_finish (by simpa [hdiv] using hne) (by simp [hsrc]) hrun

section
variable {S : Nat} (d : Reg) {lit : BitVec S} (hsrc : sourceWidth i = some S)
include hsrc

/-- A literal form that fits and whose source is not negative completes. -/
theorem followsTable_widened (hfits : S ≤ 8 * s.limbs) (hneg : ¬ negativeSource i) (v : Value) :
    followsTable i s (finish i (s.setReg d v)) :=
  followsTable_finish (by simp [divisorOf_of_sourceWidth hsrc]) (by simpa [hsrc] using ⟨hfits, hneg⟩) rfl

theorem followsTable_widenU (hneg : ¬ negativeSource i) : followsTable i s (widenU i d lit s) := by
  obtain ⟨hwide, h⟩ | ⟨hfits, h⟩ := widenU_cases i d lit s
  · rw [h]; exact followsTable_raise (.contractWidth hsrc hwide)
  · rw [h]; exact followsTable_widened d hsrc hfits hneg _

theorem followsTable_widenS (hneg : negativeSource i ↔ 2 ^ (S - 1) ≤ lit.toNat) :
    followsTable i s (widenS i d lit s) := by
  rw [← negative_eq_true_iff] at hneg
  obtain ⟨hwide, h⟩ | ⟨hfits, hsign, h⟩ | ⟨hfits, hsign, h⟩ := widenS_cases i d lit s
  · rw [h]; exact followsTable_raise (.contractWidth hsrc hwide)
  · rw [h]; exact followsTable_raise (.contractNegative hsrc hfits (hneg.mpr hsign))
  · rw [h]; exact followsTable_widened d hsrc hfits (by simp [hneg, hsign]) _

end

end

theorem followsTable_exec {i : Instr} (hi : i.wellFormed = true) (s : State) : followsTable i s (exec i s) := by
  cases i with
  | ldu8 d lit => exact followsTable_widenU d rfl id
  | ldu16 d lit => exact followsTable_widenU d rfl id
  | ldu32 d lit => exact followsTable_widenU d rfl id
  | ldu64 d lit => exact followsTable_widenU d rfl id
  | lds8 d lit => exact followsTable_widenS d rfl .rfl
  | lds16 d lit => exact followsTable_widenS d rfl .rfl
  | lds32 d lit => exact followsTable_widenS d rfl .rfl
  | lds64 d lit => exact followsTable_widenS d rfl .rfl
  | divu d a b => exact followsTable_division rfl rfl (run_setReg s d _)
  | remu d a b => exact followsTable_division rfl rfl (run_setReg s d _)
  | divrem d c a b =>
    have hne : d ≠ c := by simpa [Instr.wellFormed] using hi
    rw [show exec (.divrem d c a b) s = _ from if_neg hne]
    exact followsTable_division rfl rfl rfl
  | xfer d a => rw [exec_xfer]; exact followsTable_plain (i := .xfer d a) rfl rfl rfl
  | cmp a b => exact followsTable_plain rfl rfl (run_setFlags s _)
  | zero | mov | add | inc | sub | dec | neg | mul | render => exact followsTable_plain rfl rfl rfl

section
variable {i : Instr} {s t : State} (hi : i.wellFormed = true) (hready : s.run = RunState.ready.code)
  (h : exec i s = .next t)
include hi hready h

/-- A READY block that a command leaves in another run state has raised the cause recorded. -/
theorem raises_of_run {run : RunState} (hrun : run ≠ .ready) (ht : t.run = run.code) :
    ∃ cause, Raises i s run cause ∧ t.cause = cause.code := by
  obtain ⟨run', cause, hraises, hr⟩ | ⟨-, u, hr, hu⟩ := followsTable_exec hi s
  · cases h.symm.trans hr
    obtain rfl : run' = run := run_code_eq.mp ((run_enter s run' cause _).symm.trans ht)
    exact ⟨cause, hraises, cause_enter s run' cause _⟩
  · cases h.symm.trans hr
    exact absurd (run_code_eq.mp (ht.symm.trans (hu.trans hready))) hrun

/-- The run state and the cause after a command are those of a row exactly when the row applies. -/
theorem stopped_iff_raises {run : RunState} {cause : Cause} (hrun : run ≠ .ready) :
    t.run = run.code ∧ t.cause = cause.code ↔ Raises i s run cause := by
  constructor
  · rintro ⟨ht, hcause⟩
    obtain ⟨cause', hraises, hcause'⟩ := raises_of_run hi hready h hrun ht
    obtain rfl : cause' = cause := cause_code_eq.mp (hcause'.symm.trans hcause)
    exact hraises
  · intro hraises
    obtain ⟨run', cause', hraises', hr⟩ | ⟨hnone, -⟩ := followsTable_exec hi s
    · obtain ⟨rfl, rfl⟩ := raises_unique hraises hraises'
      cases h.symm.trans hr
      exact ⟨run_enter s _ _ _, cause_enter s _ _ _⟩
    · exact absurd hraises (hnone run cause)

end

/-! ### RESUME and the stopped block (R89, R92, R93) -/

theorem resume_of_trapped {s : State} (h : s.run = RunState.trapped.code) :
    s.resume = { s with status := Status.resume s.status, cp := s.fcp + 1 } := if_pos h

theorem resume_of_not_trapped {s : State} (h : s.run ≠ RunState.trapped.code) : s.resume = s := if_neg h

theorem flags_resume_status (s : State) : ({ s with status := Status.resume s.status } : State).flags = s.flags := by
  simp [State.flags]

/-- A block that is not READY takes no step (R50). -/
theorem blockStep_of_stopped {s t : State} (hrun : s.run ≠ RunState.ready.code) (h : blockStep s = .next t) :
    t = s := by
  obtain rfl | ⟨_, _, _, hready, -⟩ | ⟨_, _, hready, -⟩ := blockStep_next_writes h
  · rfl
  · exact absurd hready hrun
  · exact absurd hready hrun

/-- A host action that is no RESET, and no RESUME of a trapped block, changes at most the stream. -/
theorem hostStep_of_stopped {a : HostAction} {s t : State} (hreset : a ≠ .reset)
    (hresume : a = .resume → s.run ≠ RunState.trapped.code) (h : hostStep a s = .next t) :
    t = { s with stream := t.stream } := by
  obtain ⟨ws, -, -, rfl⟩ | ⟨r, -, rfl⟩ | ⟨ha, rfl⟩ | ⟨ha, -⟩ := hostStep_next h
  · rfl
  · rfl
  · rw [resume_of_not_trapped (hresume ha)]
  · exact absurd ha hreset

end Sys2Proof.Machine

namespace Sys2Proof

open Machine

/-- Settles O40: a command enters what the table's row says, at most one row applies, and where none does RUN stays
READY. -/
theorem causesRaisedExactlyAsTabled : Obligations.CausesRaisedExactlyAsTabled := by
  unfold Obligations.CausesRaisedExactlyAsTabled
  intro i s t hi hready hexec
  have htrapped : t.run = RunState.trapped.code → t.cause = Cause.divByZero.code := by
    intro ht
    obtain ⟨cause, hraises, hcause⟩ := raises_of_run hi hready hexec (by decide) ht
    exact hcause.trans (congrArg Cause.code (cause_of_raises_trapped hraises))
  refine ⟨?_, htrapped, ?_, ?_, fun ht => ?_⟩
  · rw [← raises_trapped_iff, ← stopped_iff_raises hi hready hexec (by decide)]
    exact (and_iff_left_of_imp htrapped).symm
  · rw [stopped_iff_raises hi hready hexec (by decide), raises_contractWidth_iff]
  · rw [stopped_iff_raises hi hready hexec (by decide), raises_contractNegative_iff]
  · obtain ⟨cause, hraises, hcause⟩ := raises_of_run hi hready hexec (by decide) ht
    rw [hcause, cause_code_eq, cause_code_eq]
    exact cause_of_raises_halted hraises

/-- Settles O41: the block is idle, SUPPLY appends to the stream, READ does nothing, and RESUME does nothing to a block
that is not TRAPPED. -/
theorem stoppedBlockExecutesNothing : Obligations.StoppedBlockExecutesNothing := by
  unfold Obligations.StoppedBlockExecutesNothing
  intro s t hstopped hreset hstep
  refine ⟨streamIsAppendOnly s t hreset hstep, ?_⟩
  obtain ⟨rest, hturn, hblock⟩ | ⟨a, rest, hturn, hhost⟩ := step_next hstep
  · have htail : s.schedule.tail = rest := by
      obtain hs | ⟨hs, rfl⟩ := hturn
      · exact congrArg List.tail hs
      · exact congrArg List.tail hs
    have hrun : s.run ≠ RunState.ready.code := by
      obtain hhalted | ⟨htrapped, -⟩ := hstopped
      · exact ne_of_eq_of_ne hhalted (by decide)
      · exact ne_of_eq_of_ne htrapped (by decide)
    rw [htail, blockStep_of_stopped (s := { s with schedule := rest }) hrun hblock]
  · have hresume : a = .resume → s.run ≠ RunState.trapped.code := by
      rintro rfl
      obtain hhalted | ⟨-, hhead⟩ := hstopped
      · exact ne_of_eq_of_ne hhalted (by decide)
      · exact absurd (congrArg List.head? hturn) hhead
    rw [hturn]
    exact hostStep_of_stopped (s := { s with schedule := rest }) (ne_reset_of_head hturn hreset) hresume hhost

/-- Settles O42: RESUME's two branches, and the host's turn is its host step. -/
theorem resumeSkipsTheTrappedCommand : Obligations.ResumeSkipsTheTrappedCommand := by
  unfold Obligations.ResumeSkipsTheTrappedCommand
  intro s
  refine ⟨fun hrun => ?_, resume_of_not_trapped, fun rest hturn => step_host hturn⟩
  rw [resume_of_trapped hrun]
  exact ⟨run_resume_status _, rfl, cause_resume_status _, flags_resume_status s, rfl, rfl, rfl, rfl, rfl,
    rfl, rfl, rfl⟩

end Sys2Proof
end
